-- ==== Sys2Proof/Word.lean ====
section
/-! DEFINITION. The machine's words: the widths of spec/00_scope.md R4 as types. Every quantity of this machine is unsigned (R5), and bit 0 is the least significant bit. -/

namespace Sys2Proof

/-- 8 bits: a memory byte, a general register, a timer, the constant `kk` (R4, R47). -/
abbrev Byte := BitVec 8

/-- 16 bits: the instruction word `op`, `pc`, `I`, a stack entry (R4, R45). -/
abbrev Word := BitVec 16

/-- 4 bits: the fields `x`, `y`, `n`, a register number, a key number (R46, R47). -/
abbrev Nibble := BitVec 4

/-- 12 bits: the field `nnn`, an absolute byte address (R47). -/
abbrev Addr12 := BitVec 12

end Sys2Proof
end

