-- ==== Sys2Proof/Config.lean ====
section
/-! DEFINITION. What an implementation fixes (spec/00_scope.md R4) and the values the spec leaves open. An open value is an opaque constant with no body, so nothing can be proved about which value it is, and whatever is proved holds for every value. -/

namespace Sys2Proof

/-- `MEM_SIZE`, 4096 bytes (R4). -/
def Config.memSize : Nat := 4096

/-- `PROGRAM_BASE`, where the loader puts the ROM and the first step fetches (R4, R31). -/
def Config.programBase : Nat := 0x200

/-- `ROM_MAX`, 4096 − 0x200 = 3584 bytes (R4, R167). -/
def Config.romMax : Nat := 3584

/-- `GLYPH_STRIDE`, bytes per font glyph (R4, R112). PRESUMED by the spec, D9 (log 3). -/
def Config.glyphStride : Nat := 5

/-- `QUIRK_FX1E_VF`, OPEN with no default (R4, R111, D8): whether `Fx1E` writes VF (log 4). Safe: free. -/
opaque Config.quirkFx1eVf : Bool

/-- `FONT_BASE`, OPEN with the constraint `FONT_BASE + 80 <= 0x200` (R4, R112, D9), which the type carries:
0 to 432 (log 2). Safe: free. -/
opaque Config.fontBase : Fin 433

/-- `FONT_DATA`, the 80 font bytes, a parameter (R4, R166, D9) whose conventional value is `Config.defaultFont`
(log 3). Safe: free. -/
opaque Config.fontData : Vector Byte 80

/-- The random byte of the `n`-th executed `Cxkk`: a free draw under no law (R103, R154, D22; log 1). Safe: free. -/
opaque Config.randomByte : Nat → Byte

/-- The conventional font of R166's table, the default of `FONT_DATA`: digits 0 to F, five bytes each.
PRESUMED by the spec, G2 (log 3). -/
def Config.defaultFont : Vector Byte 80 :=
  #v[0xF0, 0x90, 0x90, 0x90, 0xF0,  0x20, 0x60, 0x20, 0x20, 0x70,
     0xF0, 0x10, 0xF0, 0x80, 0xF0,  0xF0, 0x10, 0xF0, 0x10, 0xF0,
     0x90, 0x90, 0xF0, 0x10, 0x10,  0xF0, 0x80, 0xF0, 0x10, 0xF0,
     0xF0, 0x80, 0xF0, 0x90, 0xF0,  0xF0, 0x10, 0x20, 0x40, 0x40,
     0xF0, 0x90, 0xF0, 0x90, 0xF0,  0xF0, 0x90, 0xF0, 0x10, 0xF0,
     0xF0, 0x90, 0xF0, 0x90, 0x90,  0xE0, 0x90, 0xE0, 0x90, 0xE0,
     0xF0, 0x80, 0x80, 0x80, 0xF0,  0xE0, 0x90, 0x90, 0x90, 0xE0,
     0xF0, 0x80, 0xF0, 0x80, 0xF0,  0xF0, 0x80, 0xF0, 0x80, 0x80]

end Sys2Proof
end

