-- ==== Sys2Proof/Machine/State.lean ====
section
/-! DEFINITION. The machine's state as plain data: the ten parts of spec/10_state.md R10 and the model's own count of random draws; the ways a step can stop; the state right after reset. -/

namespace Sys2Proof.Machine

/-- `MEM` (R18) as the bytes that differ from the reset contents: (address, byte), addresses strictly rising.
`Memory.wf` states the canonical form and `Memory.initial` what an unlisted address reads as. -/
abbrev Memory := List Host.Cell

/-- `FB` (R19): 32 rows of 64 pixels, `FB[r][c]` with row 0 at the top and column 0 at the left; true is lit. -/
abbrev Screen := Vector (Vector Bool 64) 32

/-- The machine state: rule R10's ten parts, under the spec's names, and `draws`. -/
structure State where
  /-- `MEM`, 4096 bytes (R18). -/
  mem : Memory
  /-- `V[0..15]`; entry 15 is VF (R11, R12). -/
  v : Vector Byte 16
  /-- `I`, the index register (R16). -/
  i : Word
  /-- `pc`: between steps the next instruction's address, during a step the executing one's (R14). -/
  pc : Word
  /-- `STACK[0..15]`; the entries from `sp` up are dead (R17). -/
  stack : Vector Word 16
  /-- `SP`, 0 to 16, the next free slot (R17). -/
  sp : Fin 17
  /-- `FB` (R19). -/
  fb : Screen
  /-- `RP`, redraw pending (R20). -/
  rp : Bool
  /-- `DT`, the delay timer (R21). -/
  dt : Byte
  /-- `ST`, the sound timer (R21). -/
  st : Byte
  /-- `KEY[0..15]`, true is pressed; written by the host only (R22). -/
  key : Vector Bool 16
  /-- The model's own, not the spec's: how many random bytes have been drawn (R103; log 1). DESIGN CHOICE. -/
  draws : Nat
  deriving DecidableEq, Repr

/-- The errors a step can raise (R141). In every one the state is left exactly as it was (R145), so the outcome
carries no state. All are safe: the machine stops where the spec's step reports an error, and an error is
terminal (R148). -/
inductive Fault where
  /-- Raised by the decode phase of any step on a word that matches no row of the table (R51, R142). Safe. -/
  | unknownOpcode (op : Word)
  /-- Raised by `2nnn` when SP = 16 (R65, R143). Safe. -/
  | stackOverflow
  /-- Raised by `00EE` when SP = 0 (R63, R143). Safe. -/
  | stackUnderflow
  /-- Raised by the fetch, `Dxyn`, `Fx33`, `Fx55` and `Fx65` on an address above 4095 (R33, R141); `addr` is the
  lowest offending address, `max(base, 0x1000)`. Safe: the spec rejects where its source would also allow masking. -/
  | addressOutOfRange (addr : Nat)
  deriving DecidableEq, Repr

/-- Why the model would give an instruction no meaning. -/
inductive Refusal where
  /-- An instruction of the table without a meaning. No arm of `exec` raises it: all 34 have one. Safe. -/
  | notModelled (mnemonic : String)
  deriving DecidableEq, Repr

/-- What an instruction or a step answers. -/
abbrev Result := Host.Outcome State Fault Refusal

/-- The fresh machine of R23 and R165 with the empty ROM of R167: `pc` = 0x200 and SP = 0 are the source's, the
memory lists nothing (it reads as its reset contents), the other zeros are the spec's decision D15 (log 8), and the
dead stack entries are zero by DESIGN CHOICE (log 9), unsafe. -/
def State.reset : State where
  mem := []
  v := Vector.replicate 16 0
  i := 0
  pc := 0x0200
  stack := Vector.replicate 16 0
  sp := 0
  fb := Vector.replicate 32 (Vector.replicate 64 false)
  rp := false
  dt := 0
  st := 0
  key := Vector.replicate 16 false
  draws := 0

end Sys2Proof.Machine
end

