-- ==== Sys2Proof/Machine/Ops.lean ====
section
/-! DEFINITION. The named operations on the state: memory, registers, stack, framebuffer, keys, the random draw, raising an error, and the control outcome that ends every instruction. The pseudocode primitives of spec/00_scope.md R6 are these. -/

namespace Sys2Proof.Machine

/-! ### Memory (spec/20_memory.md) -/

/-- The reset contents of an address for a given font base and font (R23, R167 with an empty ROM): the 80 font bytes
at `base`, 0x00 elsewhere. The font lies below 0x200 (R4), so nothing from there up depends on it. -/
def Memory.initialWith (base : Nat) (font : Vector Byte 80) (a : Nat) : Byte :=
  if a < 0x200 then
    if base ≤ a then (font[a - base]?).getD 0 else 0
  else 0

/-- What an unlisted address reads as: its reset contents, with the implementation's font. -/
def Memory.initial (a : Nat) : Byte := Memory.initialWith Config.fontBase.val Config.fontData a

/-- The byte at an address (R36: plain RAM, reading changes nothing). -/
def Memory.byte : Memory → Nat → Byte
  | [], a => Memory.initial a
  | (b, w) :: rest, a => if a = b then w else Memory.byte rest a

/-- A memory without its entries for `a`: there it reads as its reset contents again. -/
def Memory.forget (m : Memory) (a : Nat) : Memory := m.filter (fun c => c.1 != a)

/-- An entry put in front of the first higher address. -/
def Memory.place : Memory → Nat → Byte → Memory
  | [], a, w => [(a, w)]
  | (b, u) :: rest, a, w => if a < b then (a, w) :: (b, u) :: rest else (b, u) :: Memory.place rest a w

/-- The store of one byte (R36), keeping the canonical form: storing the reset contents removes the entry. -/
def Memory.write (m : Memory) (a : Nat) (w : Byte) : Memory :=
  if w = Memory.initial a then m.forget a else (m.forget a).place a w

/-- Bytes stored at ascending addresses. -/
def Memory.writeBytes (m : Memory) (a : Nat) : List Byte → Memory
  | [] => m
  | b :: bs => Memory.writeBytes (m.write a b) (a + 1) bs

/-- The canonical form: addresses strictly rising, inside 0 to 4095, and no entry equal to the reset contents. -/
abbrev Memory.wf (m : Memory) : Prop :=
  m.Pairwise (fun c d => c.1 < d.1) ∧ ∀ c ∈ m, c.1 < Config.memSize ∧ c.2 ≠ Memory.initial c.1

/-- `MemRead(addr, 1)` after its range check (R6). -/
def State.byteAt (s : State) (a : Nat) : Byte := s.mem.byte a

/-- `MemWrite(addr, 1, w)` after its range check (R6). -/
def State.storeByte (s : State) (a : Nat) (w : Byte) : State := { s with mem := s.mem.write a w }

/-- The range check of an access to `len` bytes from `base` on: on unbounded integers, never masked (R33, D1, D2);
an access to no byte is in range (R122, D29). -/
def inRange (base len : Nat) : Bool := len == 0 || base + len ≤ Config.memSize

/-! ### Registers and single fields -/

/-- VF, the flag register `V[15]` (R12). -/
def flagReg : Nibble := 0xF

/-- `V[x]` (R6). -/
def State.readV (s : State) (x : Nibble) : Byte := s.v[x.toNat]

/-- `V[x] <- b` (R6). -/
def State.writeV (s : State) (x : Nibble) (b : Byte) : State := { s with v := s.v.set x.toNat b }

/-- `I <- w`. -/
def State.setI (s : State) (w : Word) : State := { s with i := w }

/-- `pc <- w`. -/
def State.setPc (s : State) (w : Word) : State := { s with pc := w }

/-- `DT <- b`. -/
def State.setDt (s : State) (b : Byte) : State := { s with dt := b }

/-- `ST <- b`. -/
def State.setSt (s : State) (b : Byte) : State := { s with st := b }

/-- `RP <- b`. -/
def State.setRp (s : State) (b : Bool) : State := { s with rp := b }

/-- The whole framebuffer replaced. -/
def State.setFb (s : State) (fb : Screen) : State := { s with fb := fb }

/-- The whole key array replaced. -/
def State.setKey (s : State) (key : Vector Bool 16) : State := { s with key := key }

/-- The random byte the next executed `Cxkk` receives: `rand8()` (R103, R154), a free value (log 1). -/
def State.randomByte (s : State) : Byte := Config.randomByte s.draws

/-- One random byte has been consumed (log 1). -/
def State.countDraw (s : State) : State := { s with draws := s.draws + 1 }

/-! ### The call stack (R17) -/

/-- `STACK[k]`. -/
def State.stackAt (s : State) (k : Fin 16) : Word := s.stack[k.val]

/-- Push: needs SP < 16, then `STACK[SP] <- w; SP <- SP + 1`; none when the stack is full. -/
def State.push (s : State) (w : Word) : Option State :=
  if h : s.sp.val < 16 then
    some { s with stack := s.stack.set s.sp.val w, sp := ⟨s.sp.val + 1, by omega⟩ }
  else none

/-- Pop: needs SP > 0, then `SP <- SP − 1` and the value is `STACK[SP]`, which is not erased; none when empty. -/
def State.pop (s : State) : Option (Word × State) :=
  if h : 0 < s.sp.val then
    some (s.stack[s.sp.val - 1], { s with sp := ⟨s.sp.val - 1, by omega⟩ })
  else none

/-! ### Framebuffer and keys -/

/-- `FB[r mod 32][c mod 64]` (R19, coordinates taken modulo the grid). -/
def Screen.pixel (fb : Screen) (r c : Nat) : Bool :=
  (fb[r % 32]'(Nat.mod_lt _ (by decide)))[c % 64]'(Nat.mod_lt _ (by decide))

/-- `FB[r mod 32][c mod 64] <- FB[r mod 32][c mod 64] ^ 1`. -/
def Screen.flip (fb : Screen) (r c : Nat) : Screen :=
  fb.set (r % 32)
    ((fb[r % 32]'(Nat.mod_lt _ (by decide))).set (c % 64) (!fb.pixel r c) (Nat.mod_lt _ (by decide)))
    (Nat.mod_lt _ (by decide))

/-- The framebuffer with every pixel unlit. -/
def Screen.blank : Screen := Vector.replicate 32 (Vector.replicate 64 false)

/-- `FB[r][c]` of a state. -/
def State.pixel (s : State) (r c : Nat) : Bool := s.fb.pixel r c

/-- `KEY[k]` (R22). -/
def State.keyDown (s : State) (k : Nibble) : Bool := s.key[k.toNat]

/-- The least key number that is down, if any is (R133, D12). -/
def State.leastKey (s : State) : Option Nat :=
  (List.range 16).find? (fun k => s.keyDown (BitVec.ofNat 4 k))

/-! ### Ending an instruction -/

/-- `raise E(info)` (R6): the step ends with the error and no state is changed (R145). There is no trap entry: nothing
is saved, no mode changes and no handler runs on the core (R147). -/
def raise (f : Fault) : Result := .fault f

/-- An access to `len` bytes from `base`: out of range it raises `AddressOutOfRange` with the lowest offending address
before anything is written (R33, R36), in range it goes on. -/
def guardRange (base len : Nat) (go : Result) : Result :=
  if inRange base len then go else raise (.addressOutOfRange (max base 0x1000))

/-- The control outcome of an instruction (R62): `Advance`, `Skip`, `Jump(a)` or `Wait`. -/
inductive Next where
  | advance
  | skip
  | jump (a : Word)
  | wait
  deriving DecidableEq, Repr

/-- Phase 5 of the step (R62): the one write of `pc`. -/
def State.withNext (s : State) : Next → State
  | .advance => s.setPc (s.pc + 2)
  | .skip => s.setPc (s.pc + 4)
  | .jump a => s.setPc a
  | .wait => s

/-- The end of a step that raises nothing. -/
def finish (n : Next) (s : State) : Result := .next (s.withNext n)

end Sys2Proof.Machine
end

