-- ==== Sys2Proof/Machine/Operands.lean ====
section
/-! DEFINITION. Every operand form of the instruction set (spec/30_encoding.md R47): what an instruction computes from a register or a field before it acts. -/

namespace Sys2Proof.Machine

/-- `zext_16(nnn)`: an absolute address, not scaled, not relative (R47). -/
def absolute (nnn : Addr12) : Word := nnn.setWidth 16

/-- The target of `Bnnn`: `nnn + V[0]`, not masked (R66, D28). -/
def offsetTarget (nnn : Addr12) (v0 : Byte) : Word := BitVec.ofNat 16 (nnn.toNat + v0.toNat)

/-- The low nibble of a register: the key number of `Ex9E` and `ExA1` (R85, D13), the digit of `Fx29` (R112). -/
def lowNibble (b : Byte) : Nibble := b.setWidth 4

/-- The address of a glyph: `FONT_BASE + GLYPH_STRIDE * d` (R112). -/
def glyphAddress (base : Nat) (d : Nibble) : Word := BitVec.ofNat 16 (base + Config.glyphStride * d.toNat)

/-- The unwrapped sum of `Fx1E`, 0 to 0x100FE (R111). -/
def indexSum (i : Word) (b : Byte) : Nat := i.toNat + b.toNat

/-- The effective address `I + offset`, an unbounded integer (R33, R116). -/
def State.effective (s : State) (offset : Nat) : Nat := s.i.toNat + offset

/-- The hundreds digit of `Fx33` (R113). -/
def hundreds (b : Byte) : Byte := BitVec.ofNat 8 (b.toNat / 100)

/-- The tens digit of `Fx33` (R113). -/
def tens (b : Byte) : Byte := BitVec.ofNat 8 (b.toNat / 10 % 10)

/-- The ones digit of `Fx33` (R113). -/
def ones (b : Byte) : Byte := BitVec.ofNat 8 (b.toNat % 10)

/-- How many registers `V0` to `Vx` are (R114, R115). -/
def regCount (x : Nibble) : Nat := x.toNat + 1

/-- The column of a sprite's origin, `V[x] mod 64` (R122). -/
def originColumn (b : Byte) : Nat := b.toNat % 64

/-- The row of a sprite's origin, `V[y] mod 32` (R122). -/
def originRow (b : Byte) : Nat := b.toNat % 32

/-- The sprite bit at column offset `col`: bit `7 − col` of the row's byte (R121). -/
def spriteBit (b : Byte) (col : Nat) : Bool := b.getLsbD (7 - col)

end Sys2Proof.Machine
end

