-- ==== Sys2Proof/Machine/Flags.lean ====
section
/-! DEFINITION. Every flag the spec computes, all of them into VF and all exactly 0 or 1 (spec/10_state.md R12), and the write order of R13. -/

namespace Sys2Proof.Machine

/-- A flag as VF holds it: 0x00 or 0x01 (R12). -/
def flagByte (f : Bool) : Byte := if f then 1 else 0

/-- `8xy4`: carry out of bit 7 (R97). -/
def carryOut (a b : Byte) : Bool := a.toNat + b.toNat > 255

/-- `8xy5` and `8xy7`: NOT borrow, minuend ≥ subtrahend (R98, R100). -/
def noBorrow (minuend subtrahend : Byte) : Bool := minuend.toNat ≥ subtrahend.toNat

/-- `8xy6`: the bit shifted out, bit 0 (R99). -/
def shiftedOutRight (a : Byte) : Bool := a.getLsbD 0

/-- `8xyE`: the bit shifted out, bit 7 (R101). -/
def shiftedOutLeft (a : Byte) : Bool := a.getLsbD 7

/-- `Fx1E` under the quirk: the unwrapped sum exceeds 0xFFF (R111). -/
def indexOverflow (sum : Nat) : Bool := sum > 0xFFF

/-- `V[15] <- f`. -/
def State.writeFlag (s : State) (f : Bool) : State := s.writeV flagReg (flagByte f)

/-- The result first, the flag last, so that with x = 0xF the flag replaces the result (R13, R90). -/
def State.writeResultFlag (s : State) (x : Nibble) (r : Byte) (f : Bool) : State := (s.writeV x r).writeFlag f

end Sys2Proof.Machine
end

