-- ==== Sys2Proof/Machine/Alu.lean ====
section
/-! DEFINITION. Register load, arithmetic, logic and random: `6xkk`, `7xkk`, `8xy0` to `8xy7`, `8xyE`, `Cxkk` (spec/42_alu.md R90 to R104). Operands are read from the state before the instruction; 8-bit arithmetic wraps (R104). -/

namespace Sys2Proof.Machine

/-- `6xkk` LD Vx, kk (R91). -/
def execLdKk (x : Nibble) (kk : Byte) (s : State) : Result := finish .advance (s.writeV x kk)

/-- `7xkk` ADD Vx, kk (R92): no flag. -/
def execAddKk (x : Nibble) (kk : Byte) (s : State) : Result := finish .advance (s.writeV x (s.readV x + kk))

/-- `8xy0` LD Vx, Vy (R93). -/
def execLdVy (x y : Nibble) (s : State) : Result := finish .advance (s.writeV x (s.readV y))

/-- `8xy1` OR Vx, Vy (R94): no flag. -/
def execOrVy (x y : Nibble) (s : State) : Result := finish .advance (s.writeV x (s.readV x ||| s.readV y))

/-- `8xy2` AND Vx, Vy (R95): no flag. -/
def execAndVy (x y : Nibble) (s : State) : Result := finish .advance (s.writeV x (s.readV x &&& s.readV y))

/-- `8xy3` XOR Vx, Vy (R96): no flag. -/
def execXorVy (x y : Nibble) (s : State) : Result := finish .advance (s.writeV x (s.readV x ^^^ s.readV y))

/-- `8xy4` ADD Vx, Vy (R97). -/
def execAddVy (x y : Nibble) (s : State) : Result :=
  finish .advance (s.writeResultFlag x (s.readV x + s.readV y) (carryOut (s.readV x) (s.readV y)))

/-- `8xy5` SUB Vx, Vy (R98): `V[x] − V[y]` (D25). -/
def execSubVy (x y : Nibble) (s : State) : Result :=
  finish .advance (s.writeResultFlag x (s.readV x - s.readV y) (noBorrow (s.readV x) (s.readV y)))

/-- `8xy6` SHR Vx (R99): logical, of `V[x]` itself; `y` is ignored (R50). -/
def execShr (x _y : Nibble) (s : State) : Result :=
  finish .advance (s.writeResultFlag x (s.readV x >>> 1) (shiftedOutRight (s.readV x)))

/-- `8xy7` SUBN Vx, Vy (R100): `V[y] − V[x]` (D25). -/
def execSubnVy (x y : Nibble) (s : State) : Result :=
  finish .advance (s.writeResultFlag x (s.readV y - s.readV x) (noBorrow (s.readV y) (s.readV x)))

/-- `8xyE` SHL Vx (R101): of `V[x]` itself; `y` is ignored (R50). -/
def execShl (x _y : Nibble) (s : State) : Result :=
  finish .advance (s.writeResultFlag x (s.readV x <<< 1) (shiftedOutLeft (s.readV x)))

/-- `Cxkk` RND Vx, kk (R102): exactly one random byte is drawn, a free value (R103; log 1). -/
def execRnd (x : Nibble) (kk : Byte) (s : State) : Result :=
  finish .advance ((s.writeV x (s.randomByte &&& kk)).countDraw)

end Sys2Proof.Machine
end

