-- ==== Sys2Proof/Machine/Control.lean ====
section
/-! DEFINITION. Jump, call and return: `00EE`, `1nnn`, `2nnn`, `Bnnn` (spec/40_step_and_control_flow.md R63 to R66). -/

namespace Sys2Proof.Machine

/-- `00EE` RET (R63): the popped value is the new pc, with no +2. -/
def execRet (s : State) : Result :=
  match s.pop with
  | some (a, t) => finish (.jump a) t
  | none => raise .stackUnderflow

/-- `1nnn` JP nnn (R64). -/
def execJp (nnn : Addr12) (s : State) : Result := finish (.jump (absolute nnn)) s

/-- `2nnn` CALL nnn (R65): the value pushed is the address after the call. -/
def execCall (nnn : Addr12) (s : State) : Result :=
  match s.push (s.pc + 2) with
  | some t => finish (.jump (absolute nnn)) t
  | none => raise .stackOverflow

/-- `Bnnn` JP V0, nnn (R66). -/
def execJpV0 (nnn : Addr12) (s : State) : Result := finish (.jump (offsetTarget nnn (s.readV 0))) s

end Sys2Proof.Machine
end

