-- ==== Sys2Proof/Machine/Display.lean ====
section
/-! DEFINITION. The display instructions `00E0` and `Dxyn` (spec/44_display.md R120 to R123). -/

namespace Sys2Proof.Machine

/-- `00E0` CLS (R120): every pixel 0, and redraw pending without condition. -/
def execCls (s : State) : Result := finish .advance ((s.setFb Screen.blank).setRp true)

/-- What a draw carries from pixel to pixel (R122): the framebuffer, `f` (collision) and `changed`. -/
structure DrawAcc where
  fb : Screen
  collided : Bool
  changed : Bool
  deriving DecidableEq, Repr

/-- One sprite bit on one pixel (R122): a 1 tests for collision before the XOR and flips; a 0 leaves the pixel. -/
def plot (acc : DrawAcc) (r c : Nat) (bit : Bool) : DrawAcc :=
  if bit then
    { fb := acc.fb.flip r c, collided := acc.collided || acc.fb.pixel r c, changed := true }
  else acc

/-- The first `k` columns of one sprite row, `b` its byte, `r` its row on the grid, `x0` the origin's column. -/
def drawCols (b : Byte) (r x0 : Nat) : Nat → DrawAcc → DrawAcc
  | 0, acc => acc
  | k + 1, acc => plot (drawCols b r x0 k acc) r ((x0 + k) % 64) (spriteBit b k)

/-- The first `k` rows of the sprite at `I`, the origin at column `x0`, row `y0`. -/
def drawRows (s : State) (x0 y0 : Nat) : Nat → DrawAcc → DrawAcc
  | 0, acc => acc
  | k + 1, acc => drawCols (s.byteAt (s.effective k)) ((y0 + k) % 32) x0 8 (drawRows s x0 y0 k acc)

/-- The framebuffer, collision and change of the sprite of `n` rows drawn at the origin `V[x]`, `V[y]`, both read
before anything is written (R122, C3, D26). -/
def drawSprite (x y n : Nibble) (s : State) : DrawAcc :=
  drawRows s (originColumn (s.readV x)) (originRow (s.readV y)) n.toNat
    { fb := s.fb, collided := false, changed := false }

/-- The state after a draw: VF is the collision, the last register write; RP is set if any pixel changed (R122). -/
def State.drawn (s : State) (d : DrawAcc) : State :=
  ((s.setFb d.fb).writeFlag d.collided).setRp (s.rp || d.changed)

/-- `Dxyn` DRW (R122); the address check comes first and is void for n = 0 (D3, D29). -/
def execDrw (x y n : Nibble) (s : State) : Result :=
  guardRange s.i.toNat n.toNat (finish .advance (s.drawn (drawSprite x y n s)))

end Sys2Proof.Machine
end

