-- ==== Sys2Proof/Machine/IndexMemory.lean ====
section
/-! DEFINITION. The index register, loads and stores: `Annn`, `Fx1E`, `Fx29`, `Fx33`, `Fx55`, `Fx65` (spec/43_index_and_memory.md R110 to R116). None of the memory instructions changes `I` (D11). -/

namespace Sys2Proof.Machine

/-- `Annn` LD I, nnn (R110). -/
def execLdI (nnn : Addr12) (s : State) : Result := finish .advance (s.setI (absolute nnn))

/-- `Fx1E` for a given value of the quirk (R111): `I` wraps at 16 bits, and with the quirk VF is written last, from the
unwrapped sum. -/
def addIndex (quirk : Bool) (x : Nibble) (s : State) : State :=
  if quirk then
    (s.setI (BitVec.ofNat 16 (indexSum s.i (s.readV x)))).writeFlag (indexOverflow (indexSum s.i (s.readV x)))
  else s.setI (BitVec.ofNat 16 (indexSum s.i (s.readV x)))

/-- `Fx1E` ADD I, Vx (R111), the quirk as the implementation has it (D8; log 4). -/
def execAddIVx (x : Nibble) (s : State) : Result := finish .advance (addIndex Config.quirkFx1eVf x s)

/-- `Fx29` for a given font base (R112): only the low nibble of `V[x]` counts, and no memory is accessed. -/
def pointAtGlyph (base : Nat) (x : Nibble) (s : State) : State :=
  s.setI (glyphAddress base (lowNibble (s.readV x)))

/-- `Fx29` LD F, Vx (R112), the font base as the implementation has it (D9; log 2). -/
def execLdFVx (x : Nibble) (s : State) : Result := finish .advance (pointAtGlyph Config.fontBase.val x s)

/-- The three bytes of `Fx33` (R113): hundreds at `I`, tens at `I + 1`, ones at `I + 2` (D10). -/
def storeDigits (b : Byte) (s : State) : State :=
  ((s.storeByte (s.effective 0) (hundreds b)).storeByte (s.effective 1) (tens b)).storeByte (s.effective 2) (ones b)

/-- `Fx33` LD B, Vx (R113). -/
def execLdBVx (x : Nibble) (s : State) : Result :=
  guardRange s.i.toNat 3 (finish .advance (storeDigits (s.readV x) s))

/-- The first `k` registers stored from `I` on, ascending (R114). -/
def storeFirst (s : State) : Nat → State
  | 0 => s
  | k + 1 => (storeFirst s k).storeByte (s.effective k) (s.readV (BitVec.ofNat 4 k))

/-- `Fx55` LD [I], Vx (R114): V0 to Vx, checked before any byte is written. -/
def execStoreRegs (x : Nibble) (s : State) : Result :=
  guardRange s.i.toNat (regCount x) (finish .advance (storeFirst s (regCount x)))

/-- The first `k` registers loaded from `I` on, ascending (R115). -/
def loadFirst (s : State) : Nat → State
  | 0 => s
  | k + 1 => (loadFirst s k).writeV (BitVec.ofNat 4 k) (s.byteAt (s.effective k))

/-- `Fx65` LD Vx, [I] (R115): V0 to Vx, checked before any register is written. -/
def execLoadRegs (x : Nibble) (s : State) : Result :=
  guardRange s.i.toNat (regCount x) (finish .advance (loadFirst s (regCount x)))

end Sys2Proof.Machine
end

