-- ==== Sys2Proof/Machine/Skip.lean ====
section
/-! DEFINITION. The conditional skips (spec/41_skip.md R80 to R86): pc moves by 4 when the condition holds and by 2 otherwise, and nothing else changes; the skipped bytes are not looked at (D31). -/

namespace Sys2Proof.Machine

/-- A skip on a condition (R80). -/
def skipIf (c : Bool) (s : State) : Result := finish (if c then .skip else .advance) s

/-- `3xkk` SE Vx, kk (R81). -/
def execSeKk (x : Nibble) (kk : Byte) (s : State) : Result := skipIf (s.readV x == kk) s

/-- `4xkk` SNE Vx, kk (R82). -/
def execSneKk (x : Nibble) (kk : Byte) (s : State) : Result := skipIf (s.readV x != kk) s

/-- `5xy0` SE Vx, Vy (R83). -/
def execSeVy (x y : Nibble) (s : State) : Result := skipIf (s.readV x == s.readV y) s

/-- `9xy0` SNE Vx, Vy (R84). -/
def execSneVy (x y : Nibble) (s : State) : Result := skipIf (s.readV x != s.readV y) s

/-- `Ex9E` SKP Vx (R85): the key is the low nibble of `V[x]` (D13). -/
def execSkp (x : Nibble) (s : State) : Result := skipIf (s.keyDown (lowNibble (s.readV x))) s

/-- `ExA1` SKNP Vx (R86). -/
def execSknp (x : Nibble) (s : State) : Result := skipIf (!s.keyDown (lowNibble (s.readV x))) s

end Sys2Proof.Machine
end

