-- ==== Sys2Proof/Machine/TimersKeys.lean ====
section
/-! DEFINITION. The timer instructions and the key wait: `Fx07`, `Fx15`, `Fx18`, `Fx0A` (spec/45_timers_and_keys.md R130 to R133). -/

namespace Sys2Proof.Machine

/-- `Fx07` LD Vx, DT (R130). -/
def execLdVxDt (x : Nibble) (s : State) : Result := finish .advance (s.writeV x s.dt)

/-- `Fx15` LD DT, Vx (R131). -/
def execLdDtVx (x : Nibble) (s : State) : Result := finish .advance (s.setDt (s.readV x))

/-- `Fx18` LD ST, Vx (R132). -/
def execLdStVx (x : Nibble) (s : State) : Result := finish .advance (s.setSt (s.readV x))

/-- `Fx0A` LD Vx, K (R133): the least key down goes to `V[x]`; with no key down the whole state stays as it is, pc still
on the word, and the step's status is `NeedsInput` (D12). -/
def execLdVxK (x : Nibble) (s : State) : Result :=
  match s.leastKey with
  | some k => finish .advance (s.writeV x (BitVec.ofNat 8 k))
  | none => finish .wait s

end Sys2Proof.Machine
end

