-- ==== Sys2Proof/Syntax.lean ====
section
/-! DEFINITION. The 34 instructions of spec/30_encoding.md R49, one constructor per row of spec/opcode_table.json, in the table's order. A field has exactly the width its encoding gives it (R46, R47), so no term of `Instr` names a register, address or row count that does not exist. -/

namespace Sys2Proof

/-- One decoded instruction. The comment before `:` gives the row's hex pattern and the rule of its meaning. -/
inductive Instr where
  /-- `00E0` CLS, R120. -/
  | cls
  /-- `00EE` RET, R63. -/
  | ret
  /-- `1nnn` JP nnn, R64. -/
  | jp (nnn : Addr12)
  /-- `2nnn` CALL nnn, R65. -/
  | call (nnn : Addr12)
  /-- `3xkk` SE Vx, kk, R81. -/
  | seKk (x : Nibble) (kk : Byte)
  /-- `4xkk` SNE Vx, kk, R82. -/
  | sneKk (x : Nibble) (kk : Byte)
  /-- `5xy0` SE Vx, Vy, R83. -/
  | seVy (x y : Nibble)
  /-- `6xkk` LD Vx, kk, R91. -/
  | ldKk (x : Nibble) (kk : Byte)
  /-- `7xkk` ADD Vx, kk, R92. -/
  | addKk (x : Nibble) (kk : Byte)
  /-- `8xy0` LD Vx, Vy, R93. -/
  | ldVy (x y : Nibble)
  /-- `8xy1` OR Vx, Vy, R94. -/
  | orVy (x y : Nibble)
  /-- `8xy2` AND Vx, Vy, R95. -/
  | andVy (x y : Nibble)
  /-- `8xy3` XOR Vx, Vy, R96. -/
  | xorVy (x y : Nibble)
  /-- `8xy4` ADD Vx, Vy, R97. -/
  | addVy (x y : Nibble)
  /-- `8xy5` SUB Vx, Vy, R98. -/
  | subVy (x y : Nibble)
  /-- `8xy6` SHR Vx, R99. The field `y` is part of the word and ignored by the meaning (R50). -/
  | shr (x y : Nibble)
  /-- `8xy7` SUBN Vx, Vy, R100. -/
  | subnVy (x y : Nibble)
  /-- `8xyE` SHL Vx, R101. The field `y` is part of the word and ignored by the meaning (R50). -/
  | shl (x y : Nibble)
  /-- `9xy0` SNE Vx, Vy, R84. -/
  | sneVy (x y : Nibble)
  /-- `Annn` LD I, nnn, R110. -/
  | ldI (nnn : Addr12)
  /-- `Bnnn` JP V0, nnn, R66. -/
  | jpV0 (nnn : Addr12)
  /-- `Cxkk` RND Vx, kk, R102. -/
  | rnd (x : Nibble) (kk : Byte)
  /-- `Dxyn` DRW Vx, Vy, n, R122. -/
  | drw (x y n : Nibble)
  /-- `Ex9E` SKP Vx, R85. -/
  | skp (x : Nibble)
  /-- `ExA1` SKNP Vx, R86. -/
  | sknp (x : Nibble)
  /-- `Fx07` LD Vx, DT, R130. -/
  | ldVxDt (x : Nibble)
  /-- `Fx0A` LD Vx, K, R133. -/
  | ldVxK (x : Nibble)
  /-- `Fx15` LD DT, Vx, R131. -/
  | ldDtVx (x : Nibble)
  /-- `Fx18` LD ST, Vx, R132. -/
  | ldStVx (x : Nibble)
  /-- `Fx1E` ADD I, Vx, R111. -/
  | addIVx (x : Nibble)
  /-- `Fx29` LD F, Vx, R112. -/
  | ldFVx (x : Nibble)
  /-- `Fx33` LD B, Vx, R113. -/
  | ldBVx (x : Nibble)
  /-- `Fx55` LD [I], Vx, R114. -/
  | storeRegs (x : Nibble)
  /-- `Fx65` LD Vx, [I], R115. -/
  | loadRegs (x : Nibble)
  deriving DecidableEq, Repr

end Sys2Proof
end

