-- ==== Sys2Proof/WellFormed.lean ====
section
/-! DEFINITION. What is well formed. The fields of `Instr` have their encoding's exact widths, so every term of it is well formed as it stands; the checks are on what comes from outside: a raw instruction word (spec/30_encoding.md R49, R51), a font base (spec/00_scope.md R4) and a ROM (spec/70_reset_and_hazards.md R167). -/

namespace Sys2Proof

/-- A row of R49's table: the bits that are fixed and the value they have. -/
structure Row where
  mtch : Word
  mask : Word
  deriving DecidableEq, Repr

/-- "A word `op` is the instruction of a row exactly when `op & mask == match`" (R49). -/
def Row.fits (r : Row) (op : Word) : Bool := op &&& r.mask == r.mtch

/-- The row of the table an instruction stands in, its match and mask as R49 prints them. -/
def Instr.row : Instr → Row
  | .cls => ⟨0x00E0, 0xFFFF⟩
  | .ret => ⟨0x00EE, 0xFFFF⟩
  | .jp _ => ⟨0x1000, 0xF000⟩
  | .call _ => ⟨0x2000, 0xF000⟩
  | .seKk _ _ => ⟨0x3000, 0xF000⟩
  | .sneKk _ _ => ⟨0x4000, 0xF000⟩
  | .seVy _ _ => ⟨0x5000, 0xF00F⟩
  | .ldKk _ _ => ⟨0x6000, 0xF000⟩
  | .addKk _ _ => ⟨0x7000, 0xF000⟩
  | .ldVy _ _ => ⟨0x8000, 0xF00F⟩
  | .orVy _ _ => ⟨0x8001, 0xF00F⟩
  | .andVy _ _ => ⟨0x8002, 0xF00F⟩
  | .xorVy _ _ => ⟨0x8003, 0xF00F⟩
  | .addVy _ _ => ⟨0x8004, 0xF00F⟩
  | .subVy _ _ => ⟨0x8005, 0xF00F⟩
  | .shr _ _ => ⟨0x8006, 0xF00F⟩
  | .subnVy _ _ => ⟨0x8007, 0xF00F⟩
  | .shl _ _ => ⟨0x800E, 0xF00F⟩
  | .sneVy _ _ => ⟨0x9000, 0xF00F⟩
  | .ldI _ => ⟨0xA000, 0xF000⟩
  | .jpV0 _ => ⟨0xB000, 0xF000⟩
  | .rnd _ _ => ⟨0xC000, 0xF000⟩
  | .drw _ _ _ => ⟨0xD000, 0xF000⟩
  | .skp _ => ⟨0xE09E, 0xF0FF⟩
  | .sknp _ => ⟨0xE0A1, 0xF0FF⟩
  | .ldVxDt _ => ⟨0xF007, 0xF0FF⟩
  | .ldVxK _ => ⟨0xF00A, 0xF0FF⟩
  | .ldDtVx _ => ⟨0xF015, 0xF0FF⟩
  | .ldStVx _ => ⟨0xF018, 0xF0FF⟩
  | .addIVx _ => ⟨0xF01E, 0xF0FF⟩
  | .ldFVx _ => ⟨0xF029, 0xF0FF⟩
  | .ldBVx _ => ⟨0xF033, 0xF0FF⟩
  | .storeRegs _ => ⟨0xF055, 0xF0FF⟩
  | .loadRegs _ => ⟨0xF065, 0xF0FF⟩

/-- Rows 1 to 19 of R49's table (groups 0 to 9). -/
def opcodeRowsLow : List Row :=
  [⟨0x00E0, 0xFFFF⟩, ⟨0x00EE, 0xFFFF⟩, ⟨0x1000, 0xF000⟩, ⟨0x2000, 0xF000⟩, ⟨0x3000, 0xF000⟩, ⟨0x4000, 0xF000⟩,
   ⟨0x5000, 0xF00F⟩, ⟨0x6000, 0xF000⟩, ⟨0x7000, 0xF000⟩, ⟨0x8000, 0xF00F⟩, ⟨0x8001, 0xF00F⟩, ⟨0x8002, 0xF00F⟩,
   ⟨0x8003, 0xF00F⟩, ⟨0x8004, 0xF00F⟩, ⟨0x8005, 0xF00F⟩, ⟨0x8006, 0xF00F⟩, ⟨0x8007, 0xF00F⟩, ⟨0x800E, 0xF00F⟩,
   ⟨0x9000, 0xF00F⟩]

/-- Rows 20 to 34 of R49's table (groups A to F). -/
def opcodeRowsHigh : List Row :=
  [⟨0xA000, 0xF000⟩, ⟨0xB000, 0xF000⟩, ⟨0xC000, 0xF000⟩, ⟨0xD000, 0xF000⟩, ⟨0xE09E, 0xF0FF⟩, ⟨0xE0A1, 0xF0FF⟩,
   ⟨0xF007, 0xF0FF⟩, ⟨0xF00A, 0xF0FF⟩, ⟨0xF015, 0xF0FF⟩, ⟨0xF018, 0xF0FF⟩, ⟨0xF01E, 0xF0FF⟩, ⟨0xF029, 0xF0FF⟩,
   ⟨0xF033, 0xF0FF⟩, ⟨0xF055, 0xF0FF⟩, ⟨0xF065, 0xF0FF⟩]

/-- R49's table: the complete list of 34 rows. -/
def opcodeRows : List Row := opcodeRowsLow ++ opcodeRowsHigh

/-- A word is well formed when some row of the table fits it; every other word is illegal (R51). -/
def wordWellFormed (op : Word) : Bool := opcodeRows.any (·.fits op)

/-- The constraint on `FONT_BASE`: the font lies inside the reserved region (R4). -/
def fontBaseWellFormed (base : Nat) : Bool := base + 80 ≤ Config.programBase

/-- The loader accepts a ROM of at most 3584 bytes, whatever its bytes (R167). -/
def romWellFormed (rom : List Byte) : Bool := rom.length ≤ Config.romMax

end Sys2Proof
end

