-- ==== Sys2Proof/Decode.lean ====
section
/-! DEFINITION. Decoding (spec/30_encoding.md R45 to R51): a total function from words, and from bytes, that rejects by name; then the encoder, written from the same table. -/

namespace Sys2Proof

/-- The instruction descriptor of R46: the raw word and every field of it, extracted from every word. -/
structure Fields where
  op : Word
  group : Nibble
  x : Nibble
  y : Nibble
  n : Nibble
  kk : Byte
  nnn : Addr12
  deriving DecidableEq, Repr

/-- The field extraction of R46, total over all 65536 words. -/
def fields (op : Word) : Fields where
  op := op
  group := op.extractLsb' 12 4
  x := op.extractLsb' 8 4
  y := op.extractLsb' 4 4
  n := op.extractLsb' 0 4
  kk := op.extractLsb' 0 8
  nnn := op.extractLsb' 0 12

/-- Why bytes are no instruction. Safe: nothing is executed. -/
inductive Reject where
  /-- The word matches no row of the table (R51). Raised by `decodeBytes`. -/
  | unknownOpcode (op : Word)
  /-- Fewer than the two bytes every instruction has (R45). Raised by `decodeBytes`; a step always has two. -/
  | truncated (got : Nat)
  deriving DecidableEq, Repr

/-- Group 0x0: the whole word is compared (R48, R50, D5). -/
def decodeGroup0 (f : Fields) : Option Instr :=
  match f.op with
  | 0x00E0#16 => some .cls
  | 0x00EE#16 => some .ret
  | _ => none

/-- Group 0x8: the selector is `n` (R48, D7). -/
def decodeGroup8 (f : Fields) : Option Instr :=
  match f.n with
  | 0x0#4 => some (.ldVy f.x f.y)
  | 0x1#4 => some (.orVy f.x f.y)
  | 0x2#4 => some (.andVy f.x f.y)
  | 0x3#4 => some (.xorVy f.x f.y)
  | 0x4#4 => some (.addVy f.x f.y)
  | 0x5#4 => some (.subVy f.x f.y)
  | 0x6#4 => some (.shr f.x f.y)
  | 0x7#4 => some (.subnVy f.x f.y)
  | 0xE#4 => some (.shl f.x f.y)
  | _ => none

/-- Group 0xE: the selector is `kk` (R48, D7). -/
def decodeGroupE (f : Fields) : Option Instr :=
  match f.kk with
  | 0x9E#8 => some (.skp f.x)
  | 0xA1#8 => some (.sknp f.x)
  | _ => none

/-- Group 0xF: the selector is `kk` (R48, D7). -/
def decodeGroupF (f : Fields) : Option Instr :=
  match f.kk with
  | 0x07#8 => some (.ldVxDt f.x)
  | 0x0A#8 => some (.ldVxK f.x)
  | 0x15#8 => some (.ldDtVx f.x)
  | 0x18#8 => some (.ldStVx f.x)
  | 0x1E#8 => some (.addIVx f.x)
  | 0x29#8 => some (.ldFVx f.x)
  | 0x33#8 => some (.ldBVx f.x)
  | 0x55#8 => some (.storeRegs f.x)
  | 0x65#8 => some (.loadRegs f.x)
  | _ => none

/-- Dispatch on the group (R48); `n` must be 0 in groups 5 and 9 (R50, D6). The 16 groups are
all the nibbles there are, so the last line is reached by none. -/
def decodeFields (f : Fields) : Option Instr :=
  match f.group with
  | 0x0#4 => decodeGroup0 f
  | 0x1#4 => some (.jp f.nnn)
  | 0x2#4 => some (.call f.nnn)
  | 0x3#4 => some (.seKk f.x f.kk)
  | 0x4#4 => some (.sneKk f.x f.kk)
  | 0x5#4 => if f.n = 0x0#4 then some (.seVy f.x f.y) else none
  | 0x6#4 => some (.ldKk f.x f.kk)
  | 0x7#4 => some (.addKk f.x f.kk)
  | 0x8#4 => decodeGroup8 f
  | 0x9#4 => if f.n = 0x0#4 then some (.sneVy f.x f.y) else none
  | 0xA#4 => some (.ldI f.nnn)
  | 0xB#4 => some (.jpV0 f.nnn)
  | 0xC#4 => some (.rnd f.x f.kk)
  | 0xD#4 => some (.drw f.x f.y f.n)
  | 0xE#4 => decodeGroupE f
  | 0xF#4 => decodeGroupF f
  | _ => none

/-- The instruction of a word, none where the word is illegal (R48, R51). -/
def decodeWord (op : Word) : Option Instr := decodeFields (fields op)

/-- The word of two bytes, big-endian: the byte at the lower address is bits 15 to 8 (R32, R45). -/
def wordOfBytes (hi lo : Byte) : Word := hi ++ lo

/-- The byte of a word that lies at the lower address: bits 15 to 8 (R45). -/
def hiByte (w : Word) : Byte := w.extractLsb' 8 8

/-- The byte of a word that lies at the higher address: bits 7 to 0 (R45). -/
def loByte (w : Word) : Byte := w.extractLsb' 0 8

/-- The first instruction of a byte sequence, with the bytes after it. Every instruction is two bytes (R45). -/
def decodeBytes : List Byte → Except Reject (Instr × List Byte)
  | hi :: lo :: rest =>
    match decodeWord (wordOfBytes hi lo) with
    | some i => .ok (i, rest)
    | none => .error (.unknownOpcode (wordOfBytes hi lo))
  | short => .error (.truncated short.length)

/-- A word in the view `Gnnn` of R45: group, then a 12-bit address. -/
def gnnn (group : Nibble) (nnn : Addr12) : Word := group ++ nnn

/-- A word in the view `Gxkk` of R45: group, register, then a byte. -/
def gxkk (group x : Nibble) (kk : Byte) : Word := group ++ x ++ kk

/-- A word in the view `Gxyn` of R45: four nibbles. -/
def gxyn (group x y n : Nibble) : Word := group ++ x ++ y ++ n

/-- The word of an instruction, written from the patterns of R49: leftmost nibble is bits 15 to 12 (R45). -/
def encode : Instr → Word
  | .cls => 0x00E0#16
  | .ret => 0x00EE#16
  | .jp nnn => gnnn 0x1 nnn
  | .call nnn => gnnn 0x2 nnn
  | .seKk x kk => gxkk 0x3 x kk
  | .sneKk x kk => gxkk 0x4 x kk
  | .seVy x y => gxyn 0x5 x y 0x0
  | .ldKk x kk => gxkk 0x6 x kk
  | .addKk x kk => gxkk 0x7 x kk
  | .ldVy x y => gxyn 0x8 x y 0x0
  | .orVy x y => gxyn 0x8 x y 0x1
  | .andVy x y => gxyn 0x8 x y 0x2
  | .xorVy x y => gxyn 0x8 x y 0x3
  | .addVy x y => gxyn 0x8 x y 0x4
  | .subVy x y => gxyn 0x8 x y 0x5
  | .shr x y => gxyn 0x8 x y 0x6
  | .subnVy x y => gxyn 0x8 x y 0x7
  | .shl x y => gxyn 0x8 x y 0xE
  | .sneVy x y => gxyn 0x9 x y 0x0
  | .ldI nnn => gnnn 0xA nnn
  | .jpV0 nnn => gnnn 0xB nnn
  | .rnd x kk => gxkk 0xC x kk
  | .drw x y n => gxyn 0xD x y n
  | .skp x => gxkk 0xE x 0x9E
  | .sknp x => gxkk 0xE x 0xA1
  | .ldVxDt x => gxkk 0xF x 0x07
  | .ldVxK x => gxkk 0xF x 0x0A
  | .ldDtVx x => gxkk 0xF x 0x15
  | .ldStVx x => gxkk 0xF x 0x18
  | .addIVx x => gxkk 0xF x 0x1E
  | .ldFVx x => gxkk 0xF x 0x29
  | .ldBVx x => gxkk 0xF x 0x33
  | .storeRegs x => gxkk 0xF x 0x55
  | .loadRegs x => gxkk 0xF x 0x65

/-- The two bytes of an instruction, high byte first (R45). -/
def encodeBytes (i : Instr) : List Byte := [hiByte (encode i), loByte (encode i)]

/-- The word that the opcode table's bit numbering gives: bit 0 is the least significant bit of the one word,
and the bits from `nbits` up are 0. -/
def tableWord (nbits w : Nat) : Word := BitVec.ofNat 16 (w % 2 ^ nbits)

/-- The instruction the decoder reads from a word of the opcode table, laid out as the hardware stores it. -/
def decodeTableWord (nbits w : Nat) : Option Instr :=
  match decodeBytes [hiByte (tableWord nbits w), loByte (tableWord nbits w)] with
  | .ok (i, _) => some i
  | .error _ => none

end Sys2Proof
end

