-- ==== Sys2Proof/Machine/Fetch.lean ====
section
/-! DEFINITION. Phases 1 and 2 of the step: fetch and decode (spec/40_step_and_control_flow.md R61, R62), and the placing of a word where the next step fetches. -/

namespace Sys2Proof.Machine

/-- The word at an address, big-endian: `MEM[a] ++ MEM[a + 1]` (R32). -/
def State.wordAt (s : State) (a : Nat) : Word := wordOfBytes (s.byteAt a) (s.byteAt (a + 1))

/-- Phase 1 (R61, R34): `pc <= 0xFFE` is needed; the fetch never wraps. -/
def fetch (s : State) : Except Fault Word :=
  if s.pc.toNat ≤ 0xFFE then .ok (s.wordAt s.pc.toNat)
  else .error (.addressOutOfRange (max s.pc.toNat 0x1000))

/-- Phases 1 and 2 (R62): the fetch address is checked before the word is decoded (R146). -/
def fetchDecode (s : State) : Except Fault Instr :=
  match fetch s with
  | .error f => .error f
  | .ok op =>
    match decodeWord op with
    | some i => .ok i
    | none => .error (.unknownOpcode op)

/-- The word stored big-endian at pc and pc + 1, where the next step fetches; where pc is beyond the last fetchable
address there is no such place and nothing is stored. -/
def State.placeWord (s : State) (w : Word) : State :=
  if s.pc.toNat ≤ 0xFFE then
    (s.storeByte s.pc.toNat (hiByte w)).storeByte (s.pc.toNat + 1) (loByte w)
  else s

end Sys2Proof.Machine
end

