-- ==== Sys2Proof/Machine/Step.lean ====
section
/-! DEFINITION. One step of the core (spec/40_step_and_control_flow.md R62), and the placing of an opcode-table word for it. -/

namespace Sys2Proof.Machine

/-- The whole step: fetch, decode, then the instruction's own check, effect and write of pc. -/
def step (s : State) : Host.Outcome State Fault Refusal :=
  match fetchDecode s with
  | .ok i => exec i s
  | .error f => raise f

/-- `s` with the instruction of an opcode-table word stored where `step` fetches next. It stands for the loader, which
puts a program at 0x200 from outside the machine (R167; log 6). -/
def State.withFetchWord (s : State) (nbits w : Nat) : State := s.placeWord (tableWord nbits w)

end Sys2Proof.Machine
end

