-- ==== Sys2Proof/Machine/HostEvents.lean ====
section
/-! DEFINITION. What the host does to the state between steps (spec/60_exceptions.md R150 to R157), and the loader's reset-and-load (spec/70_reset_and_hazards.md R165, R167). -/

namespace Sys2Proof.Machine

/-- The host events of R151. Any number of them, in any order, may fall between two steps. -/
inductive HostEvent where
  /-- The timer driver's `timer_tick` (R153). -/
  | timerTick
  /-- The input device's snapshot `keys[15:0]`, replacing all 16 entries (R152, R155). -/
  | keys (snapshot : BitVec 16)
  /-- The presentation layer's `redraw_ack` (R156). -/
  | redrawAck
  deriving DecidableEq, Repr

/-- A timer's tick: down by one, but a timer at 0 stays at 0 (R153). -/
def tickDown (b : Byte) : Byte := if b = 0 then 0 else b - 1

/-- `KEY[k] = keys[k]` for all 16 keys (R152). -/
def keysOfSnapshot (snapshot : BitVec 16) : Vector Bool 16 := Vector.ofFn (fun k => snapshot.getLsbD k.val)

/-- The effect of a host event on the state. -/
def HostEvent.apply : HostEvent → State → State
  | .timerTick, s => (s.setDt (tickDown s.dt)).setSt (tickDown s.st)
  | .keys snapshot, s => s.setKey (keysOfSnapshot snapshot)
  | .redrawAck, s => s.setRp false

/-- The loader's one error (R144): raised before any machine exists, never by a step. -/
inductive LoadError where
  /-- The ROM is longer than 3584 bytes. -/
  | romTooLarge
  deriving DecidableEq, Repr

/-- The fresh machine for a ROM (R165, R167): the ROM's bytes verbatim from 0x200 on, everything else at reset. -/
def State.load (rom : List Byte) : Except LoadError State :=
  if romWellFormed rom then
    .ok { State.reset with mem := State.reset.mem.writeBytes Config.programBase rom }
  else .error .romTooLarge

end Sys2Proof.Machine
end

