-- ==== Sys2Proof/Machine/Status.lean ====
section
/-! DEFINITION. The status of a step (spec/60_exceptions.md R140): an output of the step, not state. -/

namespace Sys2Proof.Machine

/-- The three classes of R140. -/
inductive Status where
  /-- One instruction was executed and pc updated. -/
  | ok
  /-- The instruction was `Fx0A` and no key is down; nothing changed. -/
  | needsInput
  /-- The step raised an error; nothing changed. -/
  | error (f : Fault)
  deriving DecidableEq, Repr

/-- The step about to be taken is an `Fx0A` that finds no key down (R133). -/
def State.waitsForKey (s : State) : Bool :=
  match fetchDecode s with
  | .ok (.ldVxK _) => s.leastKey.isNone
  | _ => false

/-- The status of the step from `s`. (`exec` refuses no instruction, so every step that is no fault is one of the first
two classes.) -/
def stepStatus (s : State) : Status :=
  match step s with
  | .fault f => .error f
  | .next _ => if s.waitsForKey then .needsInput else .ok
  | .refused _ => .ok

/-- The state after the step from `s`: after an error it is `s` itself, bit for bit (R145). -/
def afterStep (s : State) : State :=
  match step s with
  | .next t => t
  | .fault _ => s
  | .refused _ => s

/-- The numeric status codes of R140 (D17); no rule depends on them. -/
def Status.code : Status → Nat
  | .ok => 0
  | .needsInput => 1
  | .error (.unknownOpcode _) => 2
  | .error .stackOverflow => 3
  | .error .stackUnderflow => 4
  | .error (.addressOutOfRange _) => 5

/-- The information a status carries (R140). -/
def Status.info : Status → Option Nat
  | .error (.unknownOpcode op) => some op.toNat
  | .error (.addressOutOfRange a) => some a
  | .error .stackOverflow => none
  | .error .stackUnderflow => none
  | .ok => none
  | .needsInput => none

end Sys2Proof.Machine
end

