-- ==== Sys2Proof/Safety.lean ====
section
/-! DEFINITION. The terms claims are stated in: what stays as it was, what an instruction may touch, the machine's invariant, and the runs of the core together with its host. -/

namespace Sys2Proof

namespace Machine

/-! ### What stays as it was -/

/-- The parts of the state a frame speaks of; pc is not one of them, since every step may move it. -/
inductive Part where
  | mem | regs | index | stack | screen | redraw | delay | sound | keys | draws
  deriving DecidableEq, Repr

/-- A part reads the same in both states; memory through every byte, the screen through every pixel. -/
def Keeps (s t : State) : Part → Prop
  | .mem => ∀ a, t.byteAt a = s.byteAt a
  | .regs => ∀ r, t.readV r = s.readV r
  | .index => t.i = s.i
  | .stack => t.sp = s.sp ∧ ∀ k, t.stackAt k = s.stackAt k
  | .screen => ∀ r c, t.pixel r c = s.pixel r c
  | .redraw => t.rp = s.rp
  | .delay => t.dt = s.dt
  | .sound => t.st = s.st
  | .keys => ∀ k, t.keyDown k = s.keyDown k
  | .draws => t.draws = s.draws

/-- Every part but the listed ones reads as before: a frame. -/
def KeepsAllBut (touched : List Part) (s t : State) : Prop := ∀ p, p ∉ touched → Keeps s t p

/-- `V[x]` becomes `r` and every other register stays. -/
def WritesReg (s t : State) (x : Nibble) (r : Nat) : Prop :=
  ∀ q, (t.readV q).toNat = if q = x then r else (s.readV q).toNat

/-- VF becomes 1 or 0 as `f` holds or not, `V[x]` becomes `r` unless it is VF, and every other register stays (R13). -/
def WritesRegFlag (s t : State) (x : Nibble) (r : Nat) (f : Prop) : Prop :=
  (f → t.readV flagReg = 1) ∧ (¬f → t.readV flagReg = 0) ∧
    ∀ q, q ≠ flagReg → (t.readV q).toNat = if q = x then r else (s.readV q).toNat

/-- The instruction answers a next state, of which `post` holds. -/
def Completes (i : Instr) (s : State) (post : State → Prop) : Prop := ∃ t, exec i s = .next t ∧ post t

end Machine

open Machine

/-! ### What an instruction may touch: the access matrix of spec/10_state.md R24 -/

/-- The parts of the state other than general registers and pc that R24's matrix marks W, and `draws` for `Cxkk`. -/
def Instr.touches : Instr → List Part
  | .cls => [.screen, .redraw]
  | .ret | .call _ => [.stack]
  | .ldI _ | .ldFVx _ => [.index]
  | .addIVx _ => [.index]
  | .rnd _ _ => [.draws]
  | .drw _ _ _ => [.screen, .redraw]
  | .ldDtVx _ => [.delay]
  | .ldStVx _ => [.sound]
  | .ldBVx _ | .storeRegs _ => [.mem]
  | .jp _ | .jpV0 _ | .seKk _ _ | .sneKk _ _ | .seVy _ _ | .sneVy _ _ | .skp _ | .sknp _ => []
  | .ldKk _ _ | .addKk _ _ | .ldVy _ _ | .orVy _ _ | .andVy _ _ | .xorVy _ _ => []
  | .addVy _ _ | .subVy _ _ | .shr _ _ | .subnVy _ _ | .shl _ _ => []
  | .ldVxDt _ | .ldVxK _ | .loadRegs _ => []

/-- The general registers R24's columns V and VF mark W. VF under `Fx1E` depends on the quirk. -/
def Instr.writesReg : Instr → Nibble → Bool
  | .ldKk x _, r | .addKk x _, r | .ldVy x _, r | .orVy x _, r | .andVy x _, r | .xorVy x _, r => r == x
  | .rnd x _, r | .ldVxDt x, r | .ldVxK x, r => r == x
  | .addVy x _, r | .subVy x _, r | .shr x _, r | .subnVy x _, r | .shl x _, r => r == x || r == flagReg
  | .drw _ _ _, r => r == flagReg
  | .addIVx _, r => Config.quirkFx1eVf && r == flagReg
  | .loadRegs x, r => r.toNat ≤ x.toNat
  | .cls, _ | .ret, _ | .jp _, _ | .call _, _ | .jpV0 _, _ | .ldI _, _ | .ldFVx _, _ => false
  | .seKk _ _, _ | .sneKk _ _, _ | .seVy _ _, _ | .sneVy _ _, _ | .skp _, _ | .sknp _, _ => false
  | .ldDtVx _, _ | .ldStVx _, _ | .ldBVx _, _ | .storeRegs _, _ => false

/-- How many bytes from `I` on an instruction stores to (R43). -/
def Instr.storedBytes : Instr → Nat
  | .ldBVx _ => 3
  | .storeRegs x => regCount x
  | .cls | .ret | .jp _ | .call _ | .seKk _ _ | .sneKk _ _ | .seVy _ _ | .ldKk _ _ | .addKk _ _ | .ldVy _ _ => 0
  | .orVy _ _ | .andVy _ _ | .xorVy _ _ | .addVy _ _ | .subVy _ _ | .shr _ _ | .subnVy _ _ | .shl _ _ => 0
  | .sneVy _ _ | .ldI _ | .jpV0 _ | .rnd _ _ | .drw _ _ _ | .skp _ | .sknp _ | .ldVxDt _ | .ldVxK _ => 0
  | .ldDtVx _ | .ldStVx _ | .addIVx _ | .ldFVx _ | .loadRegs _ => 0

/-- The four instructions that set pc themselves (R62). -/
def Instr.isJump : Instr → Bool
  | .ret | .jp _ | .call _ | .jpV0 _ => true
  | .cls | .seKk _ _ | .sneKk _ _ | .seVy _ _ | .ldKk _ _ | .addKk _ _ | .ldVy _ _ | .orVy _ _ | .andVy _ _ => false
  | .xorVy _ _ | .addVy _ _ | .subVy _ _ | .shr _ _ | .subnVy _ _ | .shl _ _ | .sneVy _ _ | .ldI _ => false
  | .rnd _ _ | .drw _ _ _ | .skp _ | .sknp _ | .ldVxDt _ | .ldVxK _ | .ldDtVx _ | .ldStVx _ | .addIVx _ => false
  | .ldFVx _ | .ldBVx _ | .storeRegs _ | .loadRegs _ => false

/-- The six skips (R80). -/
def Instr.isSkip : Instr → Bool
  | .seKk _ _ | .sneKk _ _ | .seVy _ _ | .sneVy _ _ | .skp _ | .sknp _ => true
  | .cls | .ret | .jp _ | .call _ | .jpV0 _ | .ldKk _ _ | .addKk _ _ | .ldVy _ _ | .orVy _ _ | .andVy _ _ => false
  | .xorVy _ _ | .addVy _ _ | .subVy _ _ | .shr _ _ | .subnVy _ _ | .shl _ _ | .ldI _ | .rnd _ _ => false
  | .drw _ _ _ | .ldVxDt _ | .ldVxK _ | .ldDtVx _ | .ldStVx _ | .addIVx _ | .ldFVx _ | .ldBVx _ => false
  | .storeRegs _ | .loadRegs _ => false

namespace Machine

/-! ### Drawing -/

/-- Some sprite bit of 1 of the draw `Dxyn` lands on pixel (r, c) (R121, R122): row `row` of the sprite is the byte at
`I + row`, column offset `col` is its bit `7 − col`, and both coordinates wrap. -/
def SpriteCovers (s : State) (x y n : Nibble) (r c : Nat) : Prop :=
  ∃ row col, row < n.toNat ∧ col < 8 ∧ r = ((s.readV y).toNat + row) % 32 ∧ c = ((s.readV x).toNat + col) % 64 ∧
    (s.byteAt (s.i.toNat + row)).getLsbD (7 - col) = true

/-! ### Calls -/

/-- Calls executed one after another, to the targets in order, stopping at the first error. -/
def callChain : List Addr12 → State → Result
  | [], s => .next s
  | nnn :: rest, s =>
    match exec (.call nnn) s with
    | .next t => callChain rest t
    | .fault f => .fault f
    | .refused r => .refused r

/-! ### The invariant and runs -/

/-- What R25 says holds in every reachable state and the types do not already carry: the memory is canonical and inside
0 to 4095, pc is at most 0x10FE, and every live stack entry is between 2 and 0x1000. -/
structure State.Inv (s : State) : Prop where
  mem_wf : s.mem.wf
  pc_le : s.pc.toNat ≤ 0x10FE
  live : ∀ k : Fin 16, k.val < s.sp.val → 2 ≤ (s.stackAt k).toNat ∧ (s.stackAt k).toNat ≤ 0x1000

/-- One move of the machine with its host: a step of the core that raises no error, or a host event between steps (R151). -/
inductive Move (s t : State) : Prop where
  | core (h : step s = .next t)
  | host (e : HostEvent) (h : e.apply s = t)

/-- The states a run can reach from a fresh machine with any ROM, under any schedule of host events (R151, R167). -/
inductive Reachable : State → Prop where
  | fresh (rom : List Byte) (s : State) (h : State.load rom = .ok s) : Reachable s
  | move (s t : State) (hs : Reachable s) (h : Move s t) : Reachable t

/-- The end of a run, R169 (a): pc is at a jump to its own address. -/
def State.Idle (s : State) : Prop := s.pc.toNat ≤ 0xFFE ∧ (s.wordAt s.pc.toNat).toNat = 0x1000 + s.pc.toNat

/-- The end of a run, R169 (b): the step raises an error. -/
def State.GoneWrong (s : State) : Prop := ∃ f, step s = .fault f

/-- A safe step: the core raises no error (it executes an instruction, or waits for a key). -/
def State.SafeStep (s : State) : Prop := ∃ t, step s = .next t

/-! ### Comparing two runs -/

/-- Two answers are alike: both next states, related by `R`; or the same error; or the same refusal. -/
def AnswersAlike (R : State → State → Prop) : Result → Result → Prop
  | .next s, .next t => R s t
  | .fault f, .fault g => f = g
  | .refused a, .refused b => a = b
  | .next _, .fault _ | .next _, .refused _ | .fault _, .next _ => False
  | .fault _, .refused _ | .refused _, .next _ | .refused _, .fault _ => False

/-- The states differ at most in ST and RP. -/
def AgreeButSoundAndRedraw (s t : State) : Prop := t = { s with st := t.st, rp := t.rp }

/-- The states differ at most in dead stack entries, those from SP up. -/
def AgreeButDeadStack (s t : State) : Prop :=
  t = { s with stack := t.stack } ∧ ∀ k : Fin 16, k.val < s.sp.val → t.stackAt k = s.stackAt k

end Machine

end Sys2Proof
end

