-- ==== Sys2Proof/Certificates/Slice0/Obligations.lean ====
section
/-! DEFINITION. The statements for the provers. Each docstring names the rule of spec/ it formalises; where a clause rests on a decision, an inference or a general-knowledge passage of the spec, or on a choice of the model, the docstring says so and names it. -/

open Sys2Proof Sys2Proof.Machine

/-! ### Encoding and decoding -/

/-- Some words written out from R49's patterns decode to the instructions they stand for, one or more a family. -/
def Obligations.SampleWordsDecode : Prop :=
  decodeWord 0x00EE = some .ret ∧ decodeWord 0x2208 = some (.call 0x208) ∧
  decodeWord 0x432A = some (.sneKk 3 0x2A) ∧ decodeWord 0x8127 = some (.subnVy 1 2) ∧
  decodeWord 0xF21E = some (.addIVx 2) ∧ decodeWord 0xD12F = some (.drw 1 2 15) ∧
  decodeWord 0xF50A = some (.ldVxK 5) ∧ decodeWord 0x5121 = none

/-- R46: every field of the descriptor, as a quotient and remainder of the word, and how the fields overlap (R7). -/
def Obligations.FieldsOfTheWord : Prop :=
  ∀ op : Word,
    (fields op).op = op ∧
    (fields op).group.toNat = op.toNat / 4096 ∧
    (fields op).x.toNat = op.toNat / 256 % 16 ∧
    (fields op).y.toNat = op.toNat / 16 % 16 ∧
    (fields op).n.toNat = op.toNat % 16 ∧
    (fields op).kk.toNat = op.toNat % 256 ∧
    (fields op).nnn.toNat = op.toNat % 4096 ∧
    (fields op).kk = (fields op).y ++ (fields op).n ∧
    (fields op).nnn = (fields op).x ++ (fields op).y ++ (fields op).n

/-- Every instruction is read back from its own word, and from its own two bytes whatever follows them. Derived. -/
def Obligations.DecodeOfEncode : Prop :=
  ∀ i : Instr, decodeWord (encode i) = some i ∧
    ∀ rest, decodeBytes (encodeBytes i ++ rest) = .ok (i, rest)

/-- No bit of a word is dropped: a word that decodes is the word of what it decodes to (the ignored field of the
shifts included). Derived. -/
def Obligations.EncodeOfDecode : Prop :=
  ∀ (op : Word) (i : Instr), decodeWord op = some i → encode i = op

/-- R49: a word is the instruction of a row exactly when `op & mask == match`; there are 34 rows. -/
def Obligations.WordIsInstructionOfItsRow : Prop :=
  opcodeRows.length = 34 ∧
  ∀ (op : Word) (r : Row), r ∈ opcodeRows → (op &&& r.mask = r.mtch ↔ ∃ i, decodeWord op = some i ∧ i.row = r)

/-- The illegal words, group by group (the table of R51, which rests on the spec's decisions D5, D6 and D7), and a step
that fetches one raises `UnknownOpcode` with the whole word. -/
def Obligations.IllegalWordsRaiseUnknownOpcode : Prop :=
  (∀ op : Word, decodeWord op = none ↔
    ((fields op).group = 0x0 ∧ op ≠ 0x00E0 ∧ op ≠ 0x00EE) ∨
    ((fields op).group = 0x5 ∧ (fields op).n ≠ 0) ∨
    ((fields op).group = 0x8 ∧ (fields op).n ∈ [0x8#4, 0x9#4, 0xA#4, 0xB#4, 0xC#4, 0xD#4, 0xF#4]) ∨
    ((fields op).group = 0x9 ∧ (fields op).n ≠ 0) ∨
    ((fields op).group = 0xE ∧ (fields op).kk ∉ [0x9E#8, 0xA1#8]) ∨
    ((fields op).group = 0xF ∧
      (fields op).kk ∉ [0x07#8, 0x0A#8, 0x15#8, 0x18#8, 0x1E#8, 0x29#8, 0x33#8, 0x55#8, 0x65#8])) ∧
  ∀ s : State, s.pc.toNat ≤ 0xFFE → decodeWord (s.wordAt s.pc.toNat) = none →
    step s = .fault (.unknownOpcode (s.wordAt s.pc.toNat)) ∧ afterStep s = s

/-! ### The step -/

/-- When the two bytes at pc, high byte first, decode to `i`, the step is `exec i` at the same state; nothing is added
around it, since each instruction ends with its own write of pc (R62). -/
def Obligations.StepRunsTheDecodedInstruction : Prop :=
  ∀ (s : State) (i : Instr), s.pc.toNat ≤ 0xFFE →
    decodeWord (s.byteAt s.pc.toNat ++ s.byteAt (s.pc.toNat + 1)) = some i → step s = exec i s

/-- A fetch that would leave the memory raises `AddressOutOfRange` and wraps nowhere (the spec's decision D1): from
0xFFF it names the second byte, from 0x1000 up it names pc. -/
def Obligations.FetchBeyondMemoryFaults : Prop :=
  ∀ s : State,
    (s.pc.toNat = 0xFFF → step s = .fault (.addressOutOfRange 0x1000) ∧ afterStep s = s) ∧
    (0x1000 ≤ s.pc.toNat → step s = .fault (.addressOutOfRange s.pc.toNat) ∧ afterStep s = s)

/-- A word put big-endian where the next step fetches is what that step runs, from any state whose pc can be fetched
from: the bytes go through memory, the fetch and the decoder. Derived; the model's own `withFetchWord`. -/
def Obligations.PlacedWordRunsNext : Prop :=
  ∀ (s : State) (i : Instr), s.pc.toNat ≤ 0xFFE →
    step (s.withFetchWord 16 (encode i).toNat) = exec i (s.withFetchWord 16 (encode i).toNat)

/-- Which instruction raises what, exactly when, with which information, and that no other raises anything (the table
of R141; the address error is the spec's own, D1 and D2). -/
def Obligations.ErrorsAreExactlyTheListedOnes : Prop :=
  ∀ (i : Instr) (s : State) (f : Fault), exec i s = .fault f ↔
    (i = .ret ∧ s.sp.val = 0 ∧ f = .stackUnderflow) ∨
    ((∃ nnn, i = .call nnn) ∧ s.sp.val = 16 ∧ f = .stackOverflow) ∨
    (f = .addressOutOfRange (max s.i.toNat 0x1000) ∧
      ((∃ x y n, i = .drw x y n ∧ 0 < n.toNat ∧ 0xFFF < s.i.toNat + n.toNat - 1) ∨
       ((∃ x, i = .ldBVx x) ∧ 0xFFF < s.i.toNat + 2) ∨
       (∃ x, (i = .storeRegs x ∨ i = .loadRegs x) ∧ 0xFFF < s.i.toNat + x.toNat)))

/-- All 34 instructions have their meaning: none is refused, and no step is. Derived. -/
def Obligations.NoInstructionIsRefused : Prop :=
  (∀ (i : Instr) (s : State) (r : Refusal), exec i s ≠ .refused r) ∧ ∀ (s : State) (r : Refusal), step s ≠ .refused r

/-- A step whose status is not `Ok` leaves the state as it was; the status is an error exactly when the step faults,
`NeedsInput` exactly when the fetched instruction is `Fx0A` and no key is down (R140, R145). -/
def Obligations.StatusAndStateAfterAStep : Prop :=
  ∀ s : State,
    (stepStatus s ≠ .ok → afterStep s = s) ∧
    (∀ f, stepStatus s = .error f ↔ step s = .fault f) ∧
    (stepStatus s = .needsInput ↔
      ∃ x, fetchDecode s = .ok (.ldVxK x) ∧ ∀ k, s.keyDown k = false)

/-- Between the jumps, pc moves by 2; by 4 only under a skip; and stays only under `Fx0A` with no key down, when nothing
else moves either (R62). -/
def Obligations.PcMovesByKindOfInstruction : Prop :=
  ∀ (i : Instr) (s t : State), exec i s = .next t → i.isJump = false →
    t.pc = s.pc + 2 ∨ (i.isSkip = true ∧ t.pc = s.pc + 4) ∨
      ((∃ x, i = .ldVxK x) ∧ (∀ k, s.keyDown k = false) ∧ t = s)

/-! ### Jump, call, return -/

/-- R64: `1nnn`. -/
def Obligations.JumpGoesToItsAddress : Prop :=
  ∀ nnn : Addr12, decodeWord (0x1#4 ++ nnn) = some (.jp nnn) ∧
    ∀ s, Completes (.jp nnn) s fun t => t.pc.toNat = nnn.toNat ∧ KeepsAllBut [] s t

/-- `Bnnn`: the target is the sum, not masked (the spec's decision D28). -/
def Obligations.JumpWithOffsetAddsV0 : Prop :=
  ∀ (nnn : Addr12) (s : State),
    Completes (.jpV0 nnn) s fun t => t.pc.toNat = nnn.toNat + (s.readV 0).toNat ∧ KeepsAllBut [] s t

/-- R65: `2nnn` pushes the address after the call, or raises on a full stack. -/
def Obligations.CallPushesTheReturnAddress : Prop :=
  ∀ nnn : Addr12, decodeWord (0x2#4 ++ nnn) = some (.call nnn) ∧
    ∀ s : State,
      (s.sp.val < 16 → Completes (.call nnn) s fun t =>
        t.pc.toNat = nnn.toNat ∧ t.sp.val = s.sp.val + 1 ∧
        (∀ k : Fin 16, t.stackAt k = if k.val = s.sp.val then s.pc + 2 else s.stackAt k) ∧
        KeepsAllBut [.stack] s t) ∧
      (s.sp.val = 16 → exec (.call nnn) s = .fault .stackOverflow)

/-- R63: `00EE` pops into pc, keeps the popped entry, or raises on an empty stack. -/
def Obligations.ReturnPopsIntoPc : Prop :=
  decodeWord 0x00EE = some .ret ∧
  ∀ s : State,
    (∀ k : Fin 16, s.sp.val = k.val + 1 → Completes .ret s fun t =>
      t.pc = s.stackAt k ∧ t.sp.val = k.val ∧ (∀ j, t.stackAt j = s.stackAt j) ∧ KeepsAllBut [.stack] s t) ∧
    (s.sp.val = 0 → exec .ret s = .fault .stackUnderflow)

/-- A return right after a call comes back to the instruction after the call, with the stack as deep as before and
nothing changed but the dead entry (the source's property S6). Derived. -/
def Obligations.ReturnComesBackAfterCall : Prop :=
  ∀ (nnn : Addr12) (s t : State), exec (.call nnn) s = .next t →
    Completes .ret t fun u => u.pc = s.pc + 2 ∧ u.sp = s.sp ∧
      (∀ k : Fin 16, k.val ≠ s.sp.val → u.stackAt k = s.stackAt k) ∧ KeepsAllBut [.stack] s u

/-- Sixteen calls fit and the seventeenth overflows (the source's property S7): a chain of calls completes exactly as far
as the stack has room, and then raises `StackOverflow`. Derived. -/
def Obligations.CallChainFitsTheStack : Prop :=
  ∀ (targets : List Addr12) (s : State),
    (s.sp.val + targets.length ≤ 16 →
      ∃ t, callChain targets s = .next t ∧ t.sp.val = s.sp.val + targets.length ∧ KeepsAllBut [.stack] s t) ∧
    (16 < s.sp.val + targets.length → callChain targets s = .fault .stackOverflow)

/-! ### Skips -/

/-- R81, R82: `3xkk` and `4xkk`, and the source's property of R81: `6xkk` at P and then `3xkk` at P + 2 with the same x
and kk always skip, to P + 6. -/
def Obligations.SkipsOnAConstant : Prop :=
  ∀ (x : Nibble) (kk : Byte),
    decodeWord (0x3#4 ++ x ++ kk) = some (.seKk x kk) ∧ decodeWord (0x4#4 ++ x ++ kk) = some (.sneKk x kk) ∧
    ∀ s : State,
      (Completes (.seKk x kk) s fun t =>
        t.pc = (if s.readV x = kk then s.pc + 4 else s.pc + 2) ∧ KeepsAllBut [] s t) ∧
      (Completes (.sneKk x kk) s fun t =>
        t.pc = (if s.readV x = kk then s.pc + 2 else s.pc + 4) ∧ KeepsAllBut [] s t) ∧
      (s.pc.toNat ≤ 0xFFC → s.wordAt s.pc.toNat = 0x6#4 ++ x ++ kk →
        s.wordAt (s.pc.toNat + 2) = 0x3#4 ++ x ++ kk →
        ∃ t u, step s = .next t ∧ step t = .next u ∧ u.readV x = kk ∧ u.pc = s.pc + 6)

/-- `5xy0` and `9xy0`; the words with another last nibble are no instruction of either group (the spec's decision D6). -/
def Obligations.SkipsOnTwoRegisters : Prop :=
  ∀ x y : Nibble,
    decodeWord (0x5#4 ++ x ++ y ++ 0x0#4) = some (.seVy x y) ∧
    decodeWord (0x9#4 ++ x ++ y ++ 0x0#4) = some (.sneVy x y) ∧
    (∀ n : Nibble, n ≠ 0 → decodeWord (0x5#4 ++ x ++ y ++ n) = none ∧ decodeWord (0x9#4 ++ x ++ y ++ n) = none) ∧
    ∀ s : State,
      (Completes (.seVy x y) s fun t =>
        t.pc = (if s.readV x = s.readV y then s.pc + 4 else s.pc + 2) ∧ KeepsAllBut [] s t) ∧
      (Completes (.sneVy x y) s fun t =>
        t.pc = (if s.readV x = s.readV y then s.pc + 2 else s.pc + 4) ∧ KeepsAllBut [] s t)

/-- `Ex9E` and `ExA1`: the key is the one numbered by the low nibble of `V[x]` (the spec's decision D13). -/
def Obligations.SkipsOnAKey : Prop :=
  ∀ (x k : Nibble) (s : State), (s.readV x).toNat % 16 = k.toNat →
    (Completes (.skp x) s fun t =>
      t.pc = (if s.keyDown k = true then s.pc + 4 else s.pc + 2) ∧ KeepsAllBut [] s t) ∧
    (Completes (.sknp x) s fun t =>
      t.pc = (if s.keyDown k = true then s.pc + 2 else s.pc + 4) ∧ KeepsAllBut [] s t)

/-! ### Constants, arithmetic, logic, random -/

/-- R91, R92: `6xkk` and `7xkk`; the sum wraps and VF is not written as a flag. -/
def Obligations.ConstantLoadAndAdd : Prop :=
  ∀ (x : Nibble) (kk : Byte),
    decodeWord (0x6#4 ++ x ++ kk) = some (.ldKk x kk) ∧ decodeWord (0x7#4 ++ x ++ kk) = some (.addKk x kk) ∧
    ∀ s : State,
      (Completes (.ldKk x kk) s fun t =>
        WritesReg s t x kk.toNat ∧ t.pc = s.pc + 2 ∧ KeepsAllBut [.regs] s t) ∧
      (Completes (.addKk x kk) s fun t =>
        WritesReg s t x (((s.readV x).toNat + kk.toNat) % 256) ∧ t.pc = s.pc + 2 ∧ KeepsAllBut [.regs] s t)

/-- `8xy0` to `8xy3` copy and combine bit by bit, with no flag (operand roles: the spec's decision D25). -/
def Obligations.CopyAndLogicWriteNoFlag : Prop :=
  ∀ (x y : Nibble) (s : State),
    (Completes (.ldVy x y) s fun t =>
      WritesReg s t x (s.readV y).toNat ∧ t.pc = s.pc + 2 ∧ KeepsAllBut [.regs] s t) ∧
    (Completes (.orVy x y) s fun t =>
      WritesReg s t x ((s.readV x).toNat ||| (s.readV y).toNat) ∧ t.pc = s.pc + 2 ∧ KeepsAllBut [.regs] s t) ∧
    (Completes (.andVy x y) s fun t =>
      WritesReg s t x ((s.readV x).toNat &&& (s.readV y).toNat) ∧ t.pc = s.pc + 2 ∧ KeepsAllBut [.regs] s t) ∧
    (Completes (.xorVy x y) s fun t =>
      WritesReg s t x ((s.readV x).toNat ^^^ (s.readV y).toNat) ∧ t.pc = s.pc + 2 ∧ KeepsAllBut [.regs] s t)

/-- R97: `8xy4`; with x = 0xF the carry replaces the sum. -/
def Obligations.AddSetsCarry : Prop :=
  ∀ x y : Nibble, decodeWord (0x8#4 ++ x ++ y ++ 0x4#4) = some (.addVy x y) ∧
    ∀ s : State, Completes (.addVy x y) s fun t =>
      WritesRegFlag s t x (((s.readV x).toNat + (s.readV y).toNat) % 256)
        ((s.readV x).toNat + (s.readV y).toNat > 255) ∧
      t.pc = s.pc + 2 ∧ KeepsAllBut [.regs] s t

/-- `8xy5` and `8xy7` on the mathematical difference; VF is 1 exactly when there is no borrow (what is subtracted from
what: the spec's decision D25). -/
def Obligations.SubtractionsSetNoBorrow : Prop :=
  ∀ (x y : Nibble) (s : State),
    (Completes (.subVy x y) s fun t =>
      WritesRegFlag s t x (((s.readV x).toNat - (s.readV y).toNat : Int) % 256).toNat
        ((s.readV x).toNat ≥ (s.readV y).toNat) ∧
      t.pc = s.pc + 2 ∧ KeepsAllBut [.regs] s t) ∧
    (Completes (.subnVy x y) s fun t =>
      WritesRegFlag s t x (((s.readV y).toNat - (s.readV x).toNat : Int) % 256).toNat
        ((s.readV y).toNat ≥ (s.readV x).toNat) ∧
      t.pc = s.pc + 2 ∧ KeepsAllBut [.regs] s t)

/-- R99, R101: the shifts move one position, on `V[x]` whatever `y` is, and VF is the bit shifted out. -/
def Obligations.ShiftsSetTheBitShiftedOut : Prop :=
  ∀ x y : Nibble,
    decodeWord (0x8#4 ++ x ++ y ++ 0x6#4) = some (.shr x y) ∧ decodeWord (0x8#4 ++ x ++ y ++ 0xE#4) = some (.shl x y) ∧
    ∀ s : State,
      (Completes (.shr x y) s fun t =>
        WritesRegFlag s t x ((s.readV x).toNat / 2) ((s.readV x).toNat % 2 = 1) ∧
        t.pc = s.pc + 2 ∧ KeepsAllBut [.regs] s t) ∧
      (Completes (.shl x y) s fun t =>
        WritesRegFlag s t x (2 * (s.readV x).toNat % 256) ((s.readV x).toNat / 128 = 1) ∧
        t.pc = s.pc + 2 ∧ KeepsAllBut [.regs] s t)

/-- R102: `Cxkk` ANDs the drawn byte with `kk`. The drawn byte is the model's free value, and the count of draws that
selects the next one is the model's own field (log 1). -/
def Obligations.RandomByteIsMasked : Prop :=
  ∀ (x : Nibble) (kk : Byte), decodeWord (0xC#4 ++ x ++ kk) = some (.rnd x kk) ∧
    ∀ s : State, Completes (.rnd x kk) s fun t =>
      WritesReg s t x (s.randomByte &&& kk).toNat ∧ t.readV x &&& ~~~kk = 0 ∧ t.draws = s.draws + 1 ∧
      t.pc = s.pc + 2 ∧ KeepsAllBut [.regs, .draws] s t

/-! ### The index register, loads and stores -/

/-- R110: `Annn`. -/
def Obligations.LoadIndexImmediate : Prop :=
  ∀ nnn : Addr12, decodeWord (0xA#4 ++ nnn) = some (.ldI nnn) ∧
    ∀ s : State, Completes (.ldI nnn) s fun t =>
      t.i.toNat = nnn.toNat ∧ t.pc = s.pc + 2 ∧ KeepsAllBut [.index] s t

/-- `Fx1E`: I wraps at 16 bits; VF is written, from the unwrapped sum, exactly under the quirk (0 on no overflow is the
spec's decision D8; the quirk itself is open, log 4). -/
def Obligations.AddToIndexUnderTheQuirk : Prop :=
  ∀ (x : Nibble) (s : State), Completes (.addIVx x) s fun t =>
    t.i.toNat = (s.i.toNat + (s.readV x).toNat) % 65536 ∧
    (∀ r, t.readV r =
      if Config.quirkFx1eVf = true ∧ r = flagReg then
        (if s.i.toNat + (s.readV x).toNat > 0xFFF then 1 else 0)
      else s.readV r) ∧
    t.pc = s.pc + 2 ∧ KeepsAllBut [.index, .regs] s t

/-- `Fx29` points I at the glyph of the low nibble, inside the reserved region (stride and base: the spec's decision D9;
the base is open, log 2). -/
def Obligations.PointAtGlyphOfLowNibble : Prop :=
  ∀ (x : Nibble) (s : State), Completes (.ldFVx x) s fun t =>
    t.i.toNat = Config.fontBase.val + 5 * ((s.readV x).toNat % 16) ∧ t.i.toNat ≤ 0x1FB ∧
    t.pc = s.pc + 2 ∧ KeepsAllBut [.index] s t

/-- `Fx33` stores hundreds, tens and ones at I, I + 1 and I + 2 and changes no other byte (digit order: the spec's
decision D10). -/
def Obligations.DecimalDigitsAreStored : Prop :=
  ∀ (x : Nibble) (s : State), s.i.toNat + 2 ≤ 0xFFF →
    Completes (.ldBVx x) s fun t =>
      (t.byteAt s.i.toNat).toNat = (s.readV x).toNat / 100 ∧
      (t.byteAt (s.i.toNat + 1)).toNat = (s.readV x).toNat / 10 % 10 ∧
      (t.byteAt (s.i.toNat + 2)).toNat = (s.readV x).toNat % 10 ∧
      (∀ a, a < s.i.toNat ∨ s.i.toNat + 2 < a → t.byteAt a = s.byteAt a) ∧
      t.pc = s.pc + 2 ∧ KeepsAllBut [.mem] s t

/-- `Fx55` stores V0 to Vx from I on, changes no other byte, and leaves I as it was (the spec's decision D11). -/
def Obligations.RegistersAreStoredFromIndex : Prop :=
  ∀ (x : Nibble) (s : State), s.i.toNat + x.toNat ≤ 0xFFF →
    Completes (.storeRegs x) s fun t =>
      (∀ r : Nibble, r.toNat ≤ x.toNat → t.byteAt (s.i.toNat + r.toNat) = s.readV r) ∧
      (∀ a, a < s.i.toNat ∨ s.i.toNat + x.toNat < a → t.byteAt a = s.byteAt a) ∧
      t.pc = s.pc + 2 ∧ KeepsAllBut [.mem] s t

/-- `Fx65` loads V0 to Vx from I on, VF among them as any register, and leaves the others and I as they were (the spec's
decision D11). -/
def Obligations.RegistersAreLoadedFromIndex : Prop :=
  ∀ (x : Nibble) (s : State), s.i.toNat + x.toNat ≤ 0xFFF →
    Completes (.loadRegs x) s fun t =>
      (∀ r : Nibble, t.readV r = if r.toNat ≤ x.toNat then s.byteAt (s.i.toNat + r.toNat) else s.readV r) ∧
      t.pc = s.pc + 2 ∧ KeepsAllBut [.regs] s t

/-- What `Fx55` stored, `Fx65` with the same x and I brings back, whatever the registers hold in between. Derived. -/
def Obligations.LoadBringsBackWhatWasStored : Prop :=
  ∀ (x : Nibble) (s t u : State), exec (.storeRegs x) s = .next t → u.i = t.i → Keeps t u .mem →
    Completes (.loadRegs x) u fun w => ∀ r : Nibble, r.toNat ≤ x.toNat → w.readV r = s.readV r

/-- A store is seen by the very next fetch of its bytes (the spec's decision D24): after `Fx55`, a machine whose pc points
at two stored bytes runs the instruction those registers spelled. -/
def Obligations.StoresAreSeenByTheNextFetch : Prop :=
  ∀ (x r q : Nibble) (s t : State) (i : Instr), exec (.storeRegs x) s = .next t →
    q.toNat = r.toNat + 1 → q.toNat ≤ x.toNat → decodeWord (s.readV r ++ s.readV q) = some i →
    step (t.setPc (BitVec.ofNat 16 (s.i.toNat + r.toNat))) = exec i (t.setPc (BitVec.ofNat 16 (s.i.toNat + r.toNat)))

/-! ### The framebuffer -/

/-- R120: `00E0` clears every pixel and sets RP without condition. -/
def Obligations.ClearScreenMarksRedraw : Prop :=
  decodeWord 0x00E0 = some .cls ∧
  ∀ s : State, Completes .cls s fun t =>
    (∀ r c, t.pixel r c = false) ∧ t.rp = true ∧ t.pc = s.pc + 2 ∧ KeepsAllBut [.screen, .redraw] s t

/-- `Dxyn`, pixel by pixel: a pixel is flipped exactly when a sprite bit of 1 lands on it; VF is 1 exactly when such a
pixel was lit before; RP is set exactly when there is such a pixel and otherwise kept; no register but VF changes
(operands before VF: the spec's decision D26; n = 0: D29). -/
def Obligations.DrawFlipsTheCoveredPixels : Prop :=
  ∀ (x y n : Nibble) (s : State), (n.toNat = 0 ∨ s.i.toNat + n.toNat ≤ 0x1000) →
    Completes (.drw x y n) s fun t =>
      (∀ r c, r < 32 → c < 64 →
        (SpriteCovers s x y n r c → t.pixel r c = !s.pixel r c) ∧
        (¬SpriteCovers s x y n r c → t.pixel r c = s.pixel r c)) ∧
      ((∃ r c, SpriteCovers s x y n r c ∧ s.pixel r c = true) → t.readV flagReg = 1) ∧
      ((¬∃ r c, SpriteCovers s x y n r c ∧ s.pixel r c = true) → t.readV flagReg = 0) ∧
      (∀ q, q ≠ flagReg → t.readV q = s.readV q) ∧
      (t.rp = true ↔ s.rp = true ∨ ∃ r c, SpriteCovers s x y n r c) ∧
      t.pc = s.pc + 2 ∧ KeepsAllBut [.screen, .redraw, .regs] s t

/-- R123, derived in the spec from R122: after a draw, a second draw of the same bytes at the same place restores the
framebuffer, and reports a collision exactly when some sprite bit of 1 lay on a pixel unlit before the first draw. -/
def Obligations.SecondDrawRestoresTheFramebuffer : Prop :=
  ∀ (x y n : Nibble) (s t m : State), exec (.drw x y n) s = .next t →
    Keeps t m .screen → m.i = s.i → m.readV x = s.readV x → m.readV y = s.readV y →
    (∀ k, k < n.toNat → m.byteAt (s.i.toNat + k) = s.byteAt (s.i.toNat + k)) →
    Completes (.drw x y n) m fun u =>
      (∀ r c, r < 32 → c < 64 → u.pixel r c = s.pixel r c) ∧
      ((∃ r c, SpriteCovers s x y n r c ∧ s.pixel r c = false) → u.readV flagReg = 1) ∧
      ((¬∃ r c, SpriteCovers s x y n r c ∧ s.pixel r c = false) → u.readV flagReg = 0)

/-! ### Timers and keys -/

/-- `Fx07` reads DT, `Fx15` writes DT, `Fx18` writes ST (which is which: the spec's decision D14). -/
def Obligations.TimerInstructionsMoveTheTimers : Prop :=
  ∀ (x : Nibble) (s : State),
    (Completes (.ldVxDt x) s fun t => WritesReg s t x s.dt.toNat ∧ t.pc = s.pc + 2 ∧ KeepsAllBut [.regs] s t) ∧
    (Completes (.ldDtVx x) s fun t => t.dt = s.readV x ∧ t.pc = s.pc + 2 ∧ KeepsAllBut [.delay] s t) ∧
    (Completes (.ldStVx x) s fun t => t.st = s.readV x ∧ t.pc = s.pc + 2 ∧ KeepsAllBut [.sound] s t)

/-- `Fx0A` with a key down stores the least one that is down (level and least key: the spec's decision D12). -/
def Obligations.KeyWaitTakesTheLeastKey : Prop :=
  ∀ (x k : Nibble) (s : State), s.keyDown k = true → (∀ j : Nibble, j.toNat < k.toNat → s.keyDown j = false) →
    Completes (.ldVxK x) s fun t => WritesReg s t x k.toNat ∧ t.pc = s.pc + 2 ∧ KeepsAllBut [.regs] s t

/-- A step on `Fx0A` with no key down answers `NeedsInput` and the same state; once the host reports a snapshot with some
key down, and nothing else, the same step completes (what completes it: the spec's decision D12). -/
def Obligations.KeyWaitHoldsUntilAKeyIsDown : Prop :=
  ∀ (x : Nibble) (s : State), fetchDecode s = .ok (.ldVxK x) →
    ((∀ k, s.keyDown k = false) → step s = .next s ∧ stepStatus s = .needsInput) ∧
    (∀ snapshot : BitVec 16, snapshot ≠ 0 →
      stepStatus ((HostEvent.keys snapshot).apply s) = .ok ∧
      (afterStep ((HostEvent.keys snapshot).apply s)).pc = s.pc + 2)

/-! ### The host -/

/-- `timer_tick`: each timer goes down by one and a timer at 0 stays there (one tick for both: the spec's decision D19). -/
def Obligations.TimerTickCountsBothDown : Prop :=
  ∀ s : State,
    (HostEvent.timerTick.apply s).dt.toNat = s.dt.toNat - 1 ∧
    (HostEvent.timerTick.apply s).st.toNat = s.st.toNat - 1 ∧
    (HostEvent.timerTick.apply s).pc = s.pc ∧ KeepsAllBut [.delay, .sound] s (HostEvent.timerTick.apply s)

/-- R155: a `KEY` update replaces all 16 entries at once, whatever they were. -/
def Obligations.KeyUpdateReplacesAllEntries : Prop :=
  ∀ (snapshot : BitVec 16) (s : State),
    (∀ k : Nibble, ((HostEvent.keys snapshot).apply s).keyDown k = snapshot.getLsbD k.toNat) ∧
    ((HostEvent.keys snapshot).apply s).pc = s.pc ∧ KeepsAllBut [.keys] s ((HostEvent.keys snapshot).apply s)

/-- R156: the acknowledgement clears RP and touches nothing else, the framebuffer least of all. -/
def Obligations.RedrawAckClearsOnlyTheFlag : Prop :=
  ∀ s : State,
    (HostEvent.redrawAck.apply s).rp = false ∧ (HostEvent.redrawAck.apply s).pc = s.pc ∧
    KeepsAllBut [.redraw] s (HostEvent.redrawAck.apply s)

/-- The loader: a ROM of more than 3584 bytes is refused and no machine is made; any other stands verbatim from 0x200 on,
in a machine that is otherwise the fresh one (R167; the font's place and bytes are open, D9, and the zeros are D15). -/
def Obligations.LoaderMakesTheFreshMachine : Prop :=
  ∀ rom : List Byte,
    (3584 < rom.length → State.load rom = .error .romTooLarge) ∧
    (rom.length ≤ 3584 → ∃ s, State.load rom = .ok s ∧
      (∀ j (h : j < rom.length), s.byteAt (0x200 + j) = rom[j]) ∧
      (∀ a, a < 0x200 → s.byteAt a = State.reset.byteAt a) ∧
      (∀ a, 0x200 + rom.length ≤ a → s.byteAt a = 0) ∧
      s = { State.reset with mem := s.mem })

/-! ### Reset -/

/-- The fresh machine: pc and SP at the source's values; the zeros of V, I, DT, ST, FB, RP and KEY are the spec's own
decision D15 (log 8). -/
def Obligations.ResetValues : Prop :=
  State.reset.pc = 0x200 ∧ State.reset.sp.val = 0 ∧
  (∀ r, State.reset.readV r = 0) ∧ State.reset.i = 0 ∧ State.reset.dt = 0 ∧ State.reset.st = 0 ∧
  (∀ r c, State.reset.pixel r c = false) ∧ State.reset.rp = false ∧ (∀ k, State.reset.keyDown k = false)

/-- The reset memory, for every font base the constraint allows and every font: glyph byte `j` of digit `d` at
`base + 5 d + j`, 0x00 everywhere else (R166's layout, the spec's decision D9). The machine's own is that of its
parameters. -/
def Obligations.ResetMemoryHoldsTheFont : Prop :=
  (∀ (base : Nat) (font : Vector Byte 80), fontBaseWellFormed base = true →
    (∀ (d j : Nat) (hd : d < 16) (hj : j < 5),
      Memory.initialWith base font (base + 5 * d + j) = font[5 * d + j]) ∧
    (∀ a, a < base ∨ base + 80 ≤ a → Memory.initialWith base font a = 0)) ∧
  fontBaseWellFormed Config.fontBase.val = true ∧
  ∀ a, State.reset.byteAt a = Memory.initialWith Config.fontBase.val Config.fontData a

/-! ### Whole-machine rules -/

/-- The invariant holds in the reset state. -/
def Obligations.ResetMeetsTheInvariant : Prop := State.reset.Inv

/-- Every step keeps the invariant, from every state that meets it, reachable or not. Derived from R25. -/
def Obligations.StepKeepsTheInvariant : Prop :=
  ∀ s t : State, s.Inv → step s = .next t → t.Inv

/-- R25: what holds in every state reachable from a fresh machine, with any ROM and under any schedule of host events;
and every host event keeps the invariant on its own. The spec derives it from its own rules. -/
def Obligations.ReachableStatesMeetTheInvariant : Prop :=
  (∀ (e : HostEvent) (s : State), s.Inv → (e.apply s).Inv) ∧ ∀ s : State, Reachable s → s.Inv

/-- Two canonical memories that read the same at every address are the same list: equal memories are equal data. The
model's own (log 7). -/
def Obligations.CanonicalMemoriesAreDeterminedByTheirBytes : Prop :=
  ∀ m m' : Memory, m.wf → m'.wf → (∀ a, m.byte a = m'.byte a) → m = m'

/-- The access matrix of R24 as frames: an instruction that completes changes only the parts, registers and bytes its row
marks W. RP is set and never cleared by the core (R20), and `Cxkk` draws exactly one random byte (R103; the count is the
model's own, log 1). -/
def Obligations.InstructionsWriteOnlyTheirRow : Prop :=
  ∀ (i : Instr) (s t : State), exec i s = .next t →
    (∀ p, p ≠ .regs → p ≠ .mem → p ∉ i.touches → Keeps s t p) ∧
    (∀ r, i.writesReg r = false → t.readV r = s.readV r) ∧
    (∀ a, a < s.i.toNat ∨ s.i.toNat + i.storedBytes ≤ a → t.byteAt a = s.byteAt a) ∧
    (s.rp = true → t.rp = true) ∧
    (∀ x kk, i = .rnd x kk → t.draws = s.draws + 1)

/-- No instruction's result depends on ST or RP (R20, R21): from two states that differ in nothing else, a step answers
alike, and the answers again differ in nothing else. -/
def Obligations.SoundTimerAndRedrawFlagAreNeverRead : Prop :=
  ∀ s t : State, AgreeButSoundAndRedraw s t → AnswersAlike AgreeButSoundAndRedraw (step s) (step t)

/-- Dead stack entries cannot be observed (R17): from two states that differ in nothing else, a step answers alike, and
the answers again differ in nothing else. -/
def Obligations.DeadStackEntriesAreNeverRead : Prop :=
  ∀ s t : State, AgreeButDeadStack s t → AnswersAlike AgreeButDeadStack (step s) (step t)

/-- The idle loop is a fixed point of the step (R68, derived in the spec): a jump to its own address leaves the whole
state as it is, with status `Ok`, step after step. -/
def Obligations.IdleLoopIsAFixedPoint : Prop :=
  ∀ s : State, s.Idle → step s = .next s ∧ stepStatus s = .ok
end

