-- ==== Sys2Proof/Laws/Decode.lean ====
section
/-! SUPPORT. The laws of the encoding views: the fields of a word that was put together from fields, and two bytes of a word put together again. -/

namespace Sys2Proof

theorem toNat_gxyn (g x y n : Nibble) :
    (gxyn g x y n).toNat = g.toNat * 4096 + x.toNat * 256 + y.toNat * 16 + n.toNat := by
  have hx := x.isLt
  have hy := y.isLt
  have hn := n.isLt
  simp only [gxyn, BitVec.toNat_append]
  rw [← Nat.shiftLeft_add_eq_or_of_lt hx, ← Nat.shiftLeft_add_eq_or_of_lt hy, ← Nat.shiftLeft_add_eq_or_of_lt hn]
  simp only [Nat.shiftLeft_eq]
  omega

theorem toNat_gxkk (g x : Nibble) (kk : Byte) :
    (gxkk g x kk).toNat = g.toNat * 4096 + x.toNat * 256 + kk.toNat := by
  have hx := x.isLt
  have hk := kk.isLt
  simp only [gxkk, BitVec.toNat_append]
  rw [← Nat.shiftLeft_add_eq_or_of_lt hx, ← Nat.shiftLeft_add_eq_or_of_lt hk]
  simp only [Nat.shiftLeft_eq]
  omega

theorem toNat_gnnn (g : Nibble) (nnn : Addr12) : (gnnn g nnn).toNat = g.toNat * 4096 + nnn.toNat := by
  have hn := nnn.isLt
  simp only [gnnn, BitVec.toNat_append]
  rw [← Nat.shiftLeft_add_eq_or_of_lt hn]
  simp only [Nat.shiftLeft_eq]

theorem toNat_wordOfBytes (hi lo : Byte) : (wordOfBytes hi lo).toNat = hi.toNat * 256 + lo.toNat := by
  have hl := lo.isLt
  simp only [wordOfBytes, BitVec.toNat_append]
  rw [← Nat.shiftLeft_add_eq_or_of_lt hl]
  simp only [Nat.shiftLeft_eq]

theorem toNat_field (op : Word) (start len : Nat) :
    (op.extractLsb' start len).toNat = op.toNat / 2 ^ start % 2 ^ len := by
  simp [BitVec.extractLsb'_toNat, Nat.shiftRight_eq_div_pow]

/-- The fields of a word in the view `Gxyn`. -/
theorem fields_gxyn (g x y n : Nibble) :
    (fields (gxyn g x y n)).group = g ∧ (fields (gxyn g x y n)).x = x ∧
      (fields (gxyn g x y n)).y = y ∧ (fields (gxyn g x y n)).n = n := by
  have hg := g.isLt
  have hx := x.isLt
  have hy := y.isLt
  have hn := n.isLt
  refine ⟨?_, ?_, ?_, ?_⟩ <;> apply BitVec.eq_of_toNat_eq <;>
    simp only [fields, toNat_field, toNat_gxyn] <;> omega

/-- The fields of a word in the view `Gxkk`. -/
theorem fields_gxkk (g x : Nibble) (kk : Byte) :
    (fields (gxkk g x kk)).group = g ∧ (fields (gxkk g x kk)).x = x ∧ (fields (gxkk g x kk)).kk = kk := by
  have hg := g.isLt
  have hx := x.isLt
  have hk := kk.isLt
  refine ⟨?_, ?_, ?_⟩ <;> apply BitVec.eq_of_toNat_eq <;> simp only [fields, toNat_field, toNat_gxkk] <;> omega

/-- The fields of a word in the view `Gnnn`. -/
theorem fields_gnnn (g : Nibble) (nnn : Addr12) :
    (fields (gnnn g nnn)).group = g ∧ (fields (gnnn g nnn)).nnn = nnn := by
  have hg := g.isLt
  have hn := nnn.isLt
  refine ⟨?_, ?_⟩ <;> apply BitVec.eq_of_toNat_eq <;> simp only [fields, toNat_field, toNat_gnnn] <;> omega

/-- A word is put together from its own fields, in each view. -/
theorem eq_gxyn (op : Word) : op = gxyn (fields op).group (fields op).x (fields op).y (fields op).n := by
  have h := op.isLt
  apply BitVec.eq_of_toNat_eq
  rw [toNat_gxyn]
  simp only [fields, toNat_field]
  omega

theorem eq_gxkk (op : Word) : op = gxkk (fields op).group (fields op).x (fields op).kk := by
  have h := op.isLt
  apply BitVec.eq_of_toNat_eq
  rw [toNat_gxkk]
  simp only [fields, toNat_field]
  omega

theorem eq_gnnn (op : Word) : op = gnnn (fields op).group (fields op).nnn := by
  have h := op.isLt
  apply BitVec.eq_of_toNat_eq
  rw [toNat_gnnn]
  simp only [fields, toNat_field]
  omega

/-- The bytes of a word, put together again, are the word (R32, R45). -/
theorem wordOfBytes_hiByte_loByte (w : Word) : wordOfBytes (hiByte w) (loByte w) = w := by
  have hw := w.isLt
  apply BitVec.eq_of_toNat_eq
  simp only [toNat_wordOfBytes, hiByte, loByte, toNat_field]
  omega

theorem tableWord_toNat (w : Word) : tableWord 16 w.toNat = w := by
  apply BitVec.eq_of_toNat_eq
  have hw := w.isLt
  simp only [tableWord, BitVec.toNat_ofNat]
  omega

end Sys2Proof
end

