-- ==== Sys2Proof/Laws/State.lean ====
section
/-! SUPPORT. One lemma per field per update of the state, each true by definition, so that no later proof unfolds a record update. -/

namespace Sys2Proof.Machine

variable (s : State)

/-! `writeV` -/

@[simp] theorem State.writeV_mem (x : Nibble) (b : Byte) : (s.writeV x b).mem = s.mem := rfl
@[simp] theorem State.writeV_i (x : Nibble) (b : Byte) : (s.writeV x b).i = s.i := rfl
@[simp] theorem State.writeV_pc (x : Nibble) (b : Byte) : (s.writeV x b).pc = s.pc := rfl
@[simp] theorem State.writeV_stack (x : Nibble) (b : Byte) : (s.writeV x b).stack = s.stack := rfl
@[simp] theorem State.writeV_sp (x : Nibble) (b : Byte) : (s.writeV x b).sp = s.sp := rfl
@[simp] theorem State.writeV_fb (x : Nibble) (b : Byte) : (s.writeV x b).fb = s.fb := rfl
@[simp] theorem State.writeV_rp (x : Nibble) (b : Byte) : (s.writeV x b).rp = s.rp := rfl
@[simp] theorem State.writeV_dt (x : Nibble) (b : Byte) : (s.writeV x b).dt = s.dt := rfl
@[simp] theorem State.writeV_st (x : Nibble) (b : Byte) : (s.writeV x b).st = s.st := rfl
@[simp] theorem State.writeV_key (x : Nibble) (b : Byte) : (s.writeV x b).key = s.key := rfl
@[simp] theorem State.writeV_draws (x : Nibble) (b : Byte) : (s.writeV x b).draws = s.draws := rfl
@[simp] theorem State.writeV_byteAt (x : Nibble) (b : Byte) (p : Nat) : (s.writeV x b).byteAt p = s.byteAt p := rfl
@[simp] theorem State.writeV_pixel (x : Nibble) (b : Byte) (r c : Nat) : (s.writeV x b).pixel r c = s.pixel r c := rfl
@[simp] theorem State.writeV_keyDown (x : Nibble) (b : Byte) (k : Nibble) : (s.writeV x b).keyDown k = s.keyDown k := rfl
@[simp] theorem State.writeV_stackAt (x : Nibble) (b : Byte) (k : Fin 16) : (s.writeV x b).stackAt k = s.stackAt k := rfl

/-! `storeByte` -/

@[simp] theorem State.storeByte_mem (a : Nat) (w : Byte) : (s.storeByte a w).mem = s.mem.write a w := rfl
@[simp] theorem State.storeByte_v (a : Nat) (w : Byte) : (s.storeByte a w).v = s.v := rfl
@[simp] theorem State.storeByte_i (a : Nat) (w : Byte) : (s.storeByte a w).i = s.i := rfl
@[simp] theorem State.storeByte_pc (a : Nat) (w : Byte) : (s.storeByte a w).pc = s.pc := rfl
@[simp] theorem State.storeByte_stack (a : Nat) (w : Byte) : (s.storeByte a w).stack = s.stack := rfl
@[simp] theorem State.storeByte_sp (a : Nat) (w : Byte) : (s.storeByte a w).sp = s.sp := rfl
@[simp] theorem State.storeByte_fb (a : Nat) (w : Byte) : (s.storeByte a w).fb = s.fb := rfl
@[simp] theorem State.storeByte_rp (a : Nat) (w : Byte) : (s.storeByte a w).rp = s.rp := rfl
@[simp] theorem State.storeByte_dt (a : Nat) (w : Byte) : (s.storeByte a w).dt = s.dt := rfl
@[simp] theorem State.storeByte_st (a : Nat) (w : Byte) : (s.storeByte a w).st = s.st := rfl
@[simp] theorem State.storeByte_key (a : Nat) (w : Byte) : (s.storeByte a w).key = s.key := rfl
@[simp] theorem State.storeByte_draws (a : Nat) (w : Byte) : (s.storeByte a w).draws = s.draws := rfl
@[simp] theorem State.storeByte_readV (a : Nat) (w : Byte) (q : Nibble) : (s.storeByte a w).readV q = s.readV q := rfl
@[simp] theorem State.storeByte_pixel (a : Nat) (w : Byte) (r c : Nat) : (s.storeByte a w).pixel r c = s.pixel r c := rfl
@[simp] theorem State.storeByte_keyDown (a : Nat) (w : Byte) (k : Nibble) : (s.storeByte a w).keyDown k = s.keyDown k := rfl
@[simp] theorem State.storeByte_stackAt (a : Nat) (w : Byte) (k : Fin 16) : (s.storeByte a w).stackAt k = s.stackAt k := rfl

/-! `setI` -/

@[simp] theorem State.setI_mem (w : Word) : (s.setI w).mem = s.mem := rfl
@[simp] theorem State.setI_v (w : Word) : (s.setI w).v = s.v := rfl
@[simp] theorem State.setI_i (w : Word) : (s.setI w).i = w := rfl
@[simp] theorem State.setI_pc (w : Word) : (s.setI w).pc = s.pc := rfl
@[simp] theorem State.setI_stack (w : Word) : (s.setI w).stack = s.stack := rfl
@[simp] theorem State.setI_sp (w : Word) : (s.setI w).sp = s.sp := rfl
@[simp] theorem State.setI_fb (w : Word) : (s.setI w).fb = s.fb := rfl
@[simp] theorem State.setI_rp (w : Word) : (s.setI w).rp = s.rp := rfl
@[simp] theorem State.setI_dt (w : Word) : (s.setI w).dt = s.dt := rfl
@[simp] theorem State.setI_st (w : Word) : (s.setI w).st = s.st := rfl
@[simp] theorem State.setI_key (w : Word) : (s.setI w).key = s.key := rfl
@[simp] theorem State.setI_draws (w : Word) : (s.setI w).draws = s.draws := rfl
@[simp] theorem State.setI_readV (w : Word) (q : Nibble) : (s.setI w).readV q = s.readV q := rfl
@[simp] theorem State.setI_byteAt (w : Word) (p : Nat) : (s.setI w).byteAt p = s.byteAt p := rfl
@[simp] theorem State.setI_pixel (w : Word) (r c : Nat) : (s.setI w).pixel r c = s.pixel r c := rfl
@[simp] theorem State.setI_keyDown (w : Word) (k : Nibble) : (s.setI w).keyDown k = s.keyDown k := rfl
@[simp] theorem State.setI_stackAt (w : Word) (k : Fin 16) : (s.setI w).stackAt k = s.stackAt k := rfl

/-! `setPc` -/

@[simp] theorem State.setPc_mem (w : Word) : (s.setPc w).mem = s.mem := rfl
@[simp] theorem State.setPc_v (w : Word) : (s.setPc w).v = s.v := rfl
@[simp] theorem State.setPc_i (w : Word) : (s.setPc w).i = s.i := rfl
@[simp] theorem State.setPc_pc (w : Word) : (s.setPc w).pc = w := rfl
@[simp] theorem State.setPc_stack (w : Word) : (s.setPc w).stack = s.stack := rfl
@[simp] theorem State.setPc_sp (w : Word) : (s.setPc w).sp = s.sp := rfl
@[simp] theorem State.setPc_fb (w : Word) : (s.setPc w).fb = s.fb := rfl
@[simp] theorem State.setPc_rp (w : Word) : (s.setPc w).rp = s.rp := rfl
@[simp] theorem State.setPc_dt (w : Word) : (s.setPc w).dt = s.dt := rfl
@[simp] theorem State.setPc_st (w : Word) : (s.setPc w).st = s.st := rfl
@[simp] theorem State.setPc_key (w : Word) : (s.setPc w).key = s.key := rfl
@[simp] theorem State.setPc_draws (w : Word) : (s.setPc w).draws = s.draws := rfl
@[simp] theorem State.setPc_readV (w : Word) (q : Nibble) : (s.setPc w).readV q = s.readV q := rfl
@[simp] theorem State.setPc_byteAt (w : Word) (p : Nat) : (s.setPc w).byteAt p = s.byteAt p := rfl
@[simp] theorem State.setPc_pixel (w : Word) (r c : Nat) : (s.setPc w).pixel r c = s.pixel r c := rfl
@[simp] theorem State.setPc_keyDown (w : Word) (k : Nibble) : (s.setPc w).keyDown k = s.keyDown k := rfl
@[simp] theorem State.setPc_stackAt (w : Word) (k : Fin 16) : (s.setPc w).stackAt k = s.stackAt k := rfl

/-! `setDt` -/

@[simp] theorem State.setDt_mem (b : Byte) : (s.setDt b).mem = s.mem := rfl
@[simp] theorem State.setDt_v (b : Byte) : (s.setDt b).v = s.v := rfl
@[simp] theorem State.setDt_i (b : Byte) : (s.setDt b).i = s.i := rfl
@[simp] theorem State.setDt_pc (b : Byte) : (s.setDt b).pc = s.pc := rfl
@[simp] theorem State.setDt_stack (b : Byte) : (s.setDt b).stack = s.stack := rfl
@[simp] theorem State.setDt_sp (b : Byte) : (s.setDt b).sp = s.sp := rfl
@[simp] theorem State.setDt_fb (b : Byte) : (s.setDt b).fb = s.fb := rfl
@[simp] theorem State.setDt_rp (b : Byte) : (s.setDt b).rp = s.rp := rfl
@[simp] theorem State.setDt_dt (b : Byte) : (s.setDt b).dt = b := rfl
@[simp] theorem State.setDt_st (b : Byte) : (s.setDt b).st = s.st := rfl
@[simp] theorem State.setDt_key (b : Byte) : (s.setDt b).key = s.key := rfl
@[simp] theorem State.setDt_draws (b : Byte) : (s.setDt b).draws = s.draws := rfl
@[simp] theorem State.setDt_readV (b : Byte) (q : Nibble) : (s.setDt b).readV q = s.readV q := rfl
@[simp] theorem State.setDt_byteAt (b : Byte) (p : Nat) : (s.setDt b).byteAt p = s.byteAt p := rfl
@[simp] theorem State.setDt_pixel (b : Byte) (r c : Nat) : (s.setDt b).pixel r c = s.pixel r c := rfl
@[simp] theorem State.setDt_keyDown (b : Byte) (k : Nibble) : (s.setDt b).keyDown k = s.keyDown k := rfl
@[simp] theorem State.setDt_stackAt (b : Byte) (k : Fin 16) : (s.setDt b).stackAt k = s.stackAt k := rfl

/-! `setSt` -/

@[simp] theorem State.setSt_mem (b : Byte) : (s.setSt b).mem = s.mem := rfl
@[simp] theorem State.setSt_v (b : Byte) : (s.setSt b).v = s.v := rfl
@[simp] theorem State.setSt_i (b : Byte) : (s.setSt b).i = s.i := rfl
@[simp] theorem State.setSt_pc (b : Byte) : (s.setSt b).pc = s.pc := rfl
@[simp] theorem State.setSt_stack (b : Byte) : (s.setSt b).stack = s.stack := rfl
@[simp] theorem State.setSt_sp (b : Byte) : (s.setSt b).sp = s.sp := rfl
@[simp] theorem State.setSt_fb (b : Byte) : (s.setSt b).fb = s.fb := rfl
@[simp] theorem State.setSt_rp (b : Byte) : (s.setSt b).rp = s.rp := rfl
@[simp] theorem State.setSt_dt (b : Byte) : (s.setSt b).dt = s.dt := rfl
@[simp] theorem State.setSt_st (b : Byte) : (s.setSt b).st = b := rfl
@[simp] theorem State.setSt_key (b : Byte) : (s.setSt b).key = s.key := rfl
@[simp] theorem State.setSt_draws (b : Byte) : (s.setSt b).draws = s.draws := rfl
@[simp] theorem State.setSt_readV (b : Byte) (q : Nibble) : (s.setSt b).readV q = s.readV q := rfl
@[simp] theorem State.setSt_byteAt (b : Byte) (p : Nat) : (s.setSt b).byteAt p = s.byteAt p := rfl
@[simp] theorem State.setSt_pixel (b : Byte) (r c : Nat) : (s.setSt b).pixel r c = s.pixel r c := rfl
@[simp] theorem State.setSt_keyDown (b : Byte) (k : Nibble) : (s.setSt b).keyDown k = s.keyDown k := rfl
@[simp] theorem State.setSt_stackAt (b : Byte) (k : Fin 16) : (s.setSt b).stackAt k = s.stackAt k := rfl

/-! `setRp` -/

@[simp] theorem State.setRp_mem (b : Bool) : (s.setRp b).mem = s.mem := rfl
@[simp] theorem State.setRp_v (b : Bool) : (s.setRp b).v = s.v := rfl
@[simp] theorem State.setRp_i (b : Bool) : (s.setRp b).i = s.i := rfl
@[simp] theorem State.setRp_pc (b : Bool) : (s.setRp b).pc = s.pc := rfl
@[simp] theorem State.setRp_stack (b : Bool) : (s.setRp b).stack = s.stack := rfl
@[simp] theorem State.setRp_sp (b : Bool) : (s.setRp b).sp = s.sp := rfl
@[simp] theorem State.setRp_fb (b : Bool) : (s.setRp b).fb = s.fb := rfl
@[simp] theorem State.setRp_rp (b : Bool) : (s.setRp b).rp = b := rfl
@[simp] theorem State.setRp_dt (b : Bool) : (s.setRp b).dt = s.dt := rfl
@[simp] theorem State.setRp_st (b : Bool) : (s.setRp b).st = s.st := rfl
@[simp] theorem State.setRp_key (b : Bool) : (s.setRp b).key = s.key := rfl
@[simp] theorem State.setRp_draws (b : Bool) : (s.setRp b).draws = s.draws := rfl
@[simp] theorem State.setRp_readV (b : Bool) (q : Nibble) : (s.setRp b).readV q = s.readV q := rfl
@[simp] theorem State.setRp_byteAt (b : Bool) (p : Nat) : (s.setRp b).byteAt p = s.byteAt p := rfl
@[simp] theorem State.setRp_pixel (b : Bool) (r c : Nat) : (s.setRp b).pixel r c = s.pixel r c := rfl
@[simp] theorem State.setRp_keyDown (b : Bool) (k : Nibble) : (s.setRp b).keyDown k = s.keyDown k := rfl
@[simp] theorem State.setRp_stackAt (b : Bool) (k : Fin 16) : (s.setRp b).stackAt k = s.stackAt k := rfl

/-! `setFb` -/

@[simp] theorem State.setFb_mem (fb : Screen) : (s.setFb fb).mem = s.mem := rfl
@[simp] theorem State.setFb_v (fb : Screen) : (s.setFb fb).v = s.v := rfl
@[simp] theorem State.setFb_i (fb : Screen) : (s.setFb fb).i = s.i := rfl
@[simp] theorem State.setFb_pc (fb : Screen) : (s.setFb fb).pc = s.pc := rfl
@[simp] theorem State.setFb_stack (fb : Screen) : (s.setFb fb).stack = s.stack := rfl
@[simp] theorem State.setFb_sp (fb : Screen) : (s.setFb fb).sp = s.sp := rfl
@[simp] theorem State.setFb_fb (fb : Screen) : (s.setFb fb).fb = fb := rfl
@[simp] theorem State.setFb_rp (fb : Screen) : (s.setFb fb).rp = s.rp := rfl
@[simp] theorem State.setFb_dt (fb : Screen) : (s.setFb fb).dt = s.dt := rfl
@[simp] theorem State.setFb_st (fb : Screen) : (s.setFb fb).st = s.st := rfl
@[simp] theorem State.setFb_key (fb : Screen) : (s.setFb fb).key = s.key := rfl
@[simp] theorem State.setFb_draws (fb : Screen) : (s.setFb fb).draws = s.draws := rfl
@[simp] theorem State.setFb_readV (fb : Screen) (q : Nibble) : (s.setFb fb).readV q = s.readV q := rfl
@[simp] theorem State.setFb_byteAt (fb : Screen) (p : Nat) : (s.setFb fb).byteAt p = s.byteAt p := rfl
@[simp] theorem State.setFb_keyDown (fb : Screen) (k : Nibble) : (s.setFb fb).keyDown k = s.keyDown k := rfl
@[simp] theorem State.setFb_stackAt (fb : Screen) (k : Fin 16) : (s.setFb fb).stackAt k = s.stackAt k := rfl

/-! `setKey` -/

@[simp] theorem State.setKey_mem (key : Vector Bool 16) : (s.setKey key).mem = s.mem := rfl
@[simp] theorem State.setKey_v (key : Vector Bool 16) : (s.setKey key).v = s.v := rfl
@[simp] theorem State.setKey_i (key : Vector Bool 16) : (s.setKey key).i = s.i := rfl
@[simp] theorem State.setKey_pc (key : Vector Bool 16) : (s.setKey key).pc = s.pc := rfl
@[simp] theorem State.setKey_stack (key : Vector Bool 16) : (s.setKey key).stack = s.stack := rfl
@[simp] theorem State.setKey_sp (key : Vector Bool 16) : (s.setKey key).sp = s.sp := rfl
@[simp] theorem State.setKey_fb (key : Vector Bool 16) : (s.setKey key).fb = s.fb := rfl
@[simp] theorem State.setKey_rp (key : Vector Bool 16) : (s.setKey key).rp = s.rp := rfl
@[simp] theorem State.setKey_dt (key : Vector Bool 16) : (s.setKey key).dt = s.dt := rfl
@[simp] theorem State.setKey_st (key : Vector Bool 16) : (s.setKey key).st = s.st := rfl
@[simp] theorem State.setKey_key (key : Vector Bool 16) : (s.setKey key).key = key := rfl
@[simp] theorem State.setKey_draws (key : Vector Bool 16) : (s.setKey key).draws = s.draws := rfl
@[simp] theorem State.setKey_readV (key : Vector Bool 16) (q : Nibble) : (s.setKey key).readV q = s.readV q := rfl
@[simp] theorem State.setKey_byteAt (key : Vector Bool 16) (p : Nat) : (s.setKey key).byteAt p = s.byteAt p := rfl
@[simp] theorem State.setKey_pixel (key : Vector Bool 16) (r c : Nat) : (s.setKey key).pixel r c = s.pixel r c := rfl
@[simp] theorem State.setKey_stackAt (key : Vector Bool 16) (k : Fin 16) : (s.setKey key).stackAt k = s.stackAt k := rfl

/-! `countDraw` -/

@[simp] theorem State.countDraw_mem : s.countDraw.mem = s.mem := rfl
@[simp] theorem State.countDraw_v : s.countDraw.v = s.v := rfl
@[simp] theorem State.countDraw_i : s.countDraw.i = s.i := rfl
@[simp] theorem State.countDraw_pc : s.countDraw.pc = s.pc := rfl
@[simp] theorem State.countDraw_stack : s.countDraw.stack = s.stack := rfl
@[simp] theorem State.countDraw_sp : s.countDraw.sp = s.sp := rfl
@[simp] theorem State.countDraw_fb : s.countDraw.fb = s.fb := rfl
@[simp] theorem State.countDraw_rp : s.countDraw.rp = s.rp := rfl
@[simp] theorem State.countDraw_dt : s.countDraw.dt = s.dt := rfl
@[simp] theorem State.countDraw_st : s.countDraw.st = s.st := rfl
@[simp] theorem State.countDraw_key : s.countDraw.key = s.key := rfl
@[simp] theorem State.countDraw_draws : s.countDraw.draws = s.draws + 1 := rfl
@[simp] theorem State.countDraw_readV (q : Nibble) : s.countDraw.readV q = s.readV q := rfl
@[simp] theorem State.countDraw_byteAt (p : Nat) : s.countDraw.byteAt p = s.byteAt p := rfl
@[simp] theorem State.countDraw_pixel (r c : Nat) : s.countDraw.pixel r c = s.pixel r c := rfl
@[simp] theorem State.countDraw_keyDown (k : Nibble) : s.countDraw.keyDown k = s.keyDown k := rfl
@[simp] theorem State.countDraw_stackAt (k : Fin 16) : s.countDraw.stackAt k = s.stackAt k := rfl

/-! The update that hits its own accessor, where it is true by definition -/

@[simp] theorem State.storeByte_byteAt_eq (a : Nat) (w : Byte) (p : Nat) :
    (s.storeByte a w).byteAt p = (s.mem.write a w).byte p := rfl
@[simp] theorem State.setFb_pixel (fb : Screen) (r c : Nat) : (s.setFb fb).pixel r c = fb.pixel r c := rfl

end Sys2Proof.Machine
end

