-- ==== Sys2Proof/Laws/Memory.lean ====
section
/-! SUPPORT. The laws of memory: a read after a write, and the canonical form that every memory operation keeps. -/

namespace Sys2Proof.Machine

theorem Memory.byte_forget (m : Memory) (a p : Nat) :
    (m.forget a).byte p = if p = a then Memory.initial a else m.byte p := by
  induction m with
  | nil => by_cases h : p = a <;> simp [Memory.forget, Memory.byte, h]
  | cons c rest ih =>
    obtain ⟨b, u⟩ := c
    simp only [Memory.forget, List.filter_cons] at ih ⊢
    by_cases hb : b = a
    · by_cases hp : p = a <;> simp_all [Memory.byte]
    · by_cases hp : p = b
      · subst hp; simp [Memory.byte, hb]
      · simp [Memory.byte, hb, hp, ih]

theorem Memory.byte_place (m : Memory) (a p : Nat) (w : Byte) (h : ∀ c ∈ m, c.1 ≠ a) :
    (m.place a w).byte p = if p = a then w else m.byte p := by
  induction m with
  | nil => by_cases hp : p = a <;> simp [Memory.place, Memory.byte, hp]
  | cons c rest ih =>
    obtain ⟨b, u⟩ := c
    have hb : b ≠ a := h (b, u) (by simp)
    have hr : ∀ c ∈ rest, c.1 ≠ a := fun c hc => h c (by simp [hc])
    unfold Memory.place
    split
    · simp [Memory.byte]
    · simp only [Memory.byte, ih hr]
      by_cases hp : p = b
      · subst hp; simp [hb]
      · simp [hp]

/-- A read after a write: the byte written at its address, every other byte as before, for any list of cells. -/
theorem Memory.byte_write (m : Memory) (a p : Nat) (w : Byte) :
    (m.write a w).byte p = if p = a then w else m.byte p := by
  unfold Memory.write
  split
  · rename_i h; rw [Memory.byte_forget, h]
  · rw [Memory.byte_place _ _ _ _ (by simp [Memory.forget]), Memory.byte_forget]
    split <;> rfl

theorem State.byteAt_storeByte (s : State) (a p : Nat) (w : Byte) :
    (s.storeByte a w).byteAt p = if p = a then w else s.byteAt p :=
  Memory.byte_write s.mem a p w

theorem Memory.mem_place (m : Memory) (a : Nat) (w : Byte) (c : Host.Cell) :
    c ∈ m.place a w ↔ c = (a, w) ∨ c ∈ m := by
  induction m with
  | nil => simp [Memory.place]
  | cons d rest ih =>
    obtain ⟨b, u⟩ := d
    unfold Memory.place
    split
    · simp
    · simp only [List.mem_cons, ih]; tauto

theorem Memory.place_sorted (m : Memory) (a : Nat) (w : Byte) (hs : m.Pairwise fun c d => c.1 < d.1)
    (h : ∀ c ∈ m, c.1 ≠ a) : (m.place a w).Pairwise fun c d => c.1 < d.1 := by
  induction m with
  | nil => simp [Memory.place]
  | cons d rest ih =>
    obtain ⟨b, u⟩ := d
    rw [List.pairwise_cons] at hs
    have hb : b ≠ a := h (b, u) (by simp)
    unfold Memory.place
    split
    · rename_i hab
      refine List.pairwise_cons.2 ⟨fun c hc => ?_, List.pairwise_cons.2 hs⟩
      rcases List.mem_cons.1 hc with rfl | hc
      · exact hab
      · exact lt_trans hab (hs.1 c hc)
    · rename_i hab
      refine List.pairwise_cons.2 ⟨fun c hc => ?_, ih hs.2 fun c hc => h c (by simp [hc])⟩
      rcases (Memory.mem_place rest a w c).1 hc with rfl | hc
      · exact lt_of_le_of_ne (not_lt.1 hab) hb
      · exact hs.1 c hc

theorem Memory.wf_nil : Memory.wf [] := by simp [Memory.wf]

/-- A store inside the memory keeps the canonical form. -/
theorem Memory.wf_write (m : Memory) (a : Nat) (w : Byte) (hm : m.wf) (ha : a < Config.memSize) :
    (m.write a w).wf := by
  have hf : (m.forget a).wf :=
    ⟨hm.1.sublist List.filter_sublist, fun c hc => hm.2 c (List.mem_of_mem_filter hc)⟩
  unfold Memory.write
  split
  · exact hf
  · rename_i hw
    refine ⟨Memory.place_sorted _ _ _ hf.1 (by simp [Memory.forget]), fun c hc => ?_⟩
    rcases (Memory.mem_place _ _ _ _).1 hc with rfl | hc
    · exact ⟨ha, hw⟩
    · exact hf.2 c hc

theorem State.storeByte_wf (s : State) (a : Nat) (w : Byte) (hm : s.mem.wf) (ha : a < Config.memSize) :
    (s.storeByte a w).mem.wf := Memory.wf_write s.mem a w hm ha

/-- Bytes stored in a row read back at their addresses, and every other byte is as before. -/
theorem Memory.byte_writeBytes (bs : List Byte) (m : Memory) (a p : Nat) :
    (m.writeBytes a bs).byte p = if h : a ≤ p ∧ p - a < bs.length then bs[p - a]'h.2 else m.byte p := by
  induction bs generalizing m a with
  | nil => simp [Memory.writeBytes]
  | cons b bs ih =>
    rw [Memory.writeBytes, ih, Memory.byte_write]
    by_cases hp : p = a
    · subst hp; simp
    · by_cases h1 : a + 1 ≤ p ∧ p - (a + 1) < bs.length
      · have h2 : a ≤ p ∧ p - a < (b :: bs).length := by simp only [List.length_cons]; omega
        have h3 : p - a = p - (a + 1) + 1 := by omega
        rw [dif_pos h1, dif_pos h2]
        simp only [h3, List.getElem_cons_succ]
      · have h2 : ¬(a ≤ p ∧ p - a < (b :: bs).length) := by simp only [List.length_cons]; omega
        rw [dif_neg h1, dif_neg h2, if_neg hp]

theorem Memory.wf_writeBytes (bs : List Byte) (m : Memory) (a : Nat) (hm : m.wf)
    (ha : a + bs.length ≤ Config.memSize) : (m.writeBytes a bs).wf := by
  induction bs generalizing m a with
  | nil => exact hm
  | cons b bs ih =>
    simp only [List.length_cons] at ha
    exact ih _ _ (Memory.wf_write m a b hm (by omega)) (by omega)

end Sys2Proof.Machine
end

