-- ==== Sys2Proof/Laws/Host.lean ====
section
/-! SUPPORT. What the host's operations do: the tick, the key snapshot, and the loader. -/

namespace Sys2Proof.Machine

theorem tickDown_toNat (b : Byte) : (tickDown b).toNat = b.toNat - 1 := by
  unfold tickDown
  split
  · rename_i h; rw [h]; rfl
  · rename_i h
    have hb : b.toNat ≠ 0 := fun e => h (BitVec.eq_of_toNat_eq e)
    have h1 : (1 : Byte).toNat = 1 := rfl
    rw [BitVec.toNat_sub, h1]; have := b.isLt; omega

theorem keysOfSnapshot_getElem (snapshot : BitVec 16) (k : Nat) (h : k < 16) :
    (keysOfSnapshot snapshot)[k] = snapshot.getLsbD k := by
  simp only [keysOfSnapshot, Vector.getElem_ofFn]

theorem romWellFormed_iff (rom : List Byte) : romWellFormed rom = true ↔ rom.length ≤ 3584 := by
  unfold romWellFormed
  rw [decide_eq_true_iff, Config.romMax]

theorem fontBaseWellFormed_iff (base : Nat) : fontBaseWellFormed base = true ↔ base + 80 ≤ 512 := by
  unfold fontBaseWellFormed
  rw [decide_eq_true_iff, Config.programBase]

/-- What the loader answers. -/
theorem State.load_cases (rom : List Byte) :
    (3584 < rom.length ∧ State.load rom = .error .romTooLarge) ∨
    (rom.length ≤ 3584 ∧
      State.load rom = .ok { State.reset with mem := State.reset.mem.writeBytes Config.programBase rom }) := by
  unfold State.load
  by_cases h : romWellFormed rom = true
  · exact .inr ⟨(romWellFormed_iff rom).1 h, if_pos h⟩
  · refine .inl ⟨?_, if_neg h⟩
    by_contra hn; exact h ((romWellFormed_iff rom).2 (by omega))

end Sys2Proof.Machine
end

