-- ==== Sys2Proof/Laws/Ops.lean ====
section
/-! SUPPORT. One lemma for each shared operation on registers, stack, framebuffer, keys and control, saying everything it can do. -/

namespace Sys2Proof.Machine

/-! ### Registers -/

theorem State.readV_writeV (s : State) (x q : Nibble) (b : Byte) :
    (s.writeV x b).readV q = if q = x then b else s.readV q := by
  simp only [State.readV, State.writeV, Vector.getElem_set]
  by_cases h : q = x
  · subst h; simp
  · have hn : ¬ x.toNat = q.toNat := fun e => h (BitVec.eq_of_toNat_eq e.symm)
    simp [h, hn]

/-- The registers after a result and a flag (R13): the flag replaces a result that went to VF. -/
theorem State.readV_writeResultFlag (s : State) (x q : Nibble) (r : Byte) (f : Bool) :
    (s.writeResultFlag x r f).readV q =
      if q = flagReg then flagByte f else if q = x then r else s.readV q := by
  simp only [State.writeResultFlag, State.writeFlag, State.readV_writeV]

/-! ### Control -/

@[simp] theorem finish_eq (n : Next) (s : State) : finish n s = .next (s.withNext n) := rfl
@[simp] theorem raise_eq (f : Fault) : raise f = .fault f := rfl

@[simp] theorem State.withNext_advance (s : State) : s.withNext .advance = s.setPc (s.pc + 2) := rfl
@[simp] theorem State.withNext_skip (s : State) : s.withNext .skip = s.setPc (s.pc + 4) := rfl
@[simp] theorem State.withNext_jump (s : State) (a : Word) : s.withNext (.jump a) = s.setPc a := rfl
@[simp] theorem State.withNext_wait (s : State) : s.withNext .wait = s := rfl

/-- A skip only moves pc. -/
theorem skipIf_eq (c : Bool) (s : State) : skipIf c s = .next (s.setPc (if c then s.pc + 4 else s.pc + 2)) := by
  cases c <;> rfl

theorem inRange_iff (base len : Nat) : inRange base len = true ↔ len = 0 ∨ base + len ≤ 4096 := by
  unfold inRange
  rw [Bool.or_eq_true, decide_eq_true_iff, beq_iff_eq, Config.memSize]

/-- A guarded access goes on in range and raises out of range, and does nothing else. -/
theorem guardRange_cases (base len : Nat) (go : Result) :
    ((len = 0 ∨ base + len ≤ 4096) ∧ guardRange base len go = go) ∨
    (¬(len = 0 ∨ base + len ≤ 4096) ∧ guardRange base len go = .fault (.addressOutOfRange (max base 0x1000))) := by
  unfold guardRange
  by_cases h : inRange base len = true
  · exact .inl ⟨(inRange_iff base len).1 h, by simp [h]⟩
  · exact .inr ⟨fun e => h ((inRange_iff base len).2 e), by simp [h]⟩

theorem guardRange_ok (base len : Nat) (go : Result) (h : len = 0 ∨ base + len ≤ 4096) :
    guardRange base len go = go := by
  simp [guardRange, (inRange_iff base len).2 h]

/-! ### The stack -/

/-- What a push does, when it answers. -/
theorem State.push_cases (s : State) (w : Word) :
    (s.sp.val = 16 ∧ s.push w = none) ∨
    (s.sp.val < 16 ∧ ∃ t, s.push w = some t ∧ t.sp.val = s.sp.val + 1 ∧
      (∀ k : Fin 16, t.stackAt k = if k.val = s.sp.val then w else s.stackAt k) ∧
      t = { s with sp := t.sp, stack := t.stack }) := by
  unfold State.push
  by_cases h : s.sp.val < 16
  · refine .inr ⟨h, _, dif_pos h, rfl, fun k => ?_, rfl⟩
    simp only [State.stackAt, Vector.getElem_set]
    by_cases hk : k.val = s.sp.val
    · simp [hk]
    · simp [hk, Ne.symm hk]
  · exact .inl ⟨by omega, dif_neg h⟩

/-- What a pop does, when it answers. -/
theorem State.pop_cases (s : State) :
    (s.sp.val = 0 ∧ s.pop = none) ∨
    (∃ k : Fin 16, s.sp.val = k.val + 1 ∧ ∃ t, s.pop = some (s.stackAt k, t) ∧ t.sp.val = k.val ∧
      t = { s with sp := t.sp }) := by
  unfold State.pop
  by_cases h : 0 < s.sp.val
  · exact .inr ⟨⟨s.sp.val - 1, by omega⟩, by simp only []; omega, _, dif_pos h, rfl, rfl⟩
  · exact .inl ⟨by omega, dif_neg h⟩

/-! ### Framebuffer -/

theorem Screen.pixel_flip (fb : Screen) (r c r' c' : Nat) :
    (fb.flip r c).pixel r' c' =
      if r' % 32 = r % 32 ∧ c' % 64 = c % 64 then !fb.pixel r' c' else fb.pixel r' c' := by
  simp only [Screen.pixel, Screen.flip, Vector.getElem_set]
  by_cases hr : r % 32 = r' % 32
  · by_cases hc : c % 64 = c' % 64
    · simp [hr, hc]
    · simp [hr, hc, Ne.symm hc]
  · simp [hr, Ne.symm hr]

@[simp] theorem Screen.pixel_blank (r c : Nat) : Screen.blank.pixel r c = false := by
  simp [Screen.pixel, Screen.blank]

/-! ### Keys -/

/-- The least key down: none exactly when no key is down, and otherwise a key down below which none is. -/
theorem State.leastKey_cases (s : State) :
    (s.leastKey = none ∧ ∀ k, s.keyDown k = false) ∨
    (∃ k : Nibble, s.leastKey = some k.toNat ∧ s.keyDown k = true ∧
      ∀ j : Nibble, j.toNat < k.toNat → s.keyDown j = false) := by
  unfold State.leastKey
  cases h : (List.range 16).find? (fun k => s.keyDown (BitVec.ofNat 4 k)) with
  | none =>
    refine .inl ⟨rfl, fun k => ?_⟩
    have := List.find?_eq_none.1 h k.toNat (by simpa using k.isLt)
    simpa using this
  | some n =>
    obtain ⟨hp, hlt⟩ := List.find?_range_eq_some.1 h
    obtain ⟨hn, hmin⟩ := hlt
    have hn16 : n < 16 := by simpa using hn
    have hn' : (BitVec.ofNat 4 n).toNat = n := by simp only [BitVec.toNat_ofNat]; omega
    refine .inr ⟨BitVec.ofNat 4 n, by rw [hn'], hp, fun j hj => ?_⟩
    have := hmin j.toNat (by omega)
    simpa using this

end Sys2Proof.Machine
end

