-- ==== Sys2Proof/Laws/Loops.lean ====
section
/-! SUPPORT. What the loops of `Fx55`, `Fx65` and `Dxyn` do as a whole: the bytes, registers and pixels after them, one by one. -/

namespace Sys2Proof.Machine

/-! ### Block store (R114) -/

/-- A block store changes memory only. -/
theorem storeFirst_frame (s : State) (k : Nat) : storeFirst s k = { s with mem := (storeFirst s k).mem } := by
  induction k with
  | zero => rfl
  | succ k ih => unfold storeFirst; rw [ih]; rfl

theorem byteAt_storeFirst (s : State) (k p : Nat) :
    (storeFirst s k).byteAt p =
      if s.i.toNat ≤ p ∧ p < s.i.toNat + k then s.readV (BitVec.ofNat 4 (p - s.i.toNat)) else s.byteAt p := by
  induction k with
  | zero => simp [storeFirst]
  | succ k ih =>
    unfold storeFirst
    rw [State.byteAt_storeByte, ih, State.effective]
    by_cases h1 : p = s.i.toNat + k
    · subst h1; simp
    · rw [if_neg h1]
      by_cases h2 : s.i.toNat ≤ p ∧ p < s.i.toNat + k
      · rw [if_pos h2, if_pos (by omega)]
      · rw [if_neg h2, if_neg (by omega)]

theorem storeFirst_wf (s : State) (k : Nat) (hm : s.mem.wf) (h : s.i.toNat + k ≤ 4096) :
    (storeFirst s k).mem.wf := by
  induction k with
  | zero => exact hm
  | succ k ih => exact State.storeByte_wf _ _ _ (ih (by omega)) (by simp only [State.effective, Config.memSize]; omega)

/-! ### Block load (R115) -/

/-- A block load changes general registers only. -/
theorem loadFirst_frame (s : State) (k : Nat) : loadFirst s k = { s with v := (loadFirst s k).v } := by
  induction k with
  | zero => rfl
  | succ k ih => unfold loadFirst; rw [ih]; rfl

theorem readV_loadFirst (s : State) (k : Nat) (hk : k ≤ 16) (q : Nibble) :
    (loadFirst s k).readV q = if q.toNat < k then s.byteAt (s.i.toNat + q.toNat) else s.readV q := by
  induction k with
  | zero => simp [loadFirst]
  | succ k ih =>
    have ht : (BitVec.ofNat 4 k).toNat = k := by simp only [BitVec.toNat_ofNat]; omega
    unfold loadFirst
    rw [State.readV_writeV, ih (by omega), State.effective]
    by_cases h1 : q = BitVec.ofNat 4 k
    · have hq : q.toNat = k := by rw [h1, ht]
      rw [if_pos h1, if_pos (by omega), hq]
    · have hq : q.toNat ≠ k := fun e => h1 (BitVec.eq_of_toNat_eq (by rw [ht, e]))
      rw [if_neg h1]
      by_cases h2 : q.toNat < k
      · rw [if_pos h2, if_pos (by omega)]
      · rw [if_neg h2, if_neg (by omega)]

/-! ### Drawing (R122) -/

/-- The pixel (r, c) is one on which a sprite bit of 1 lands, among the first `k` columns of a row with byte `b`. -/
def ColsCover (b : Byte) (row x0 k r c : Nat) : Prop :=
  ∃ col, col < k ∧ r % 32 = row % 32 ∧ c % 64 = (x0 + col) % 64 ∧ spriteBit b col = true

/-- The same among the first `k` rows of the sprite at `I`. -/
def RowsCover (s : State) (x0 y0 k r c : Nat) : Prop :=
  ∃ row, row < k ∧ ColsCover (s.byteAt (s.effective row)) (y0 + row) x0 8 r c

/-- What a partly finished draw has done, given which pixels it has covered so far: each of them flipped once, collision
noted for those lit before, and the change noted. -/
structure Drawn (cover : Nat → Nat → Prop) (fb : Screen) (acc₀ acc : DrawAcc) : Prop where
  flipped : ∀ r c, cover r c → acc.fb.pixel r c = !fb.pixel r c
  kept : ∀ r c, ¬cover r c → acc.fb.pixel r c = fb.pixel r c
  collided : acc.collided = true ↔ acc₀.collided = true ∨ ∃ r c, cover r c ∧ fb.pixel r c = true
  changed : acc.changed = true ↔ acc₀.changed = true ∨ ∃ r c, cover r c

/-- One more pixel, not covered before, extends a draw. -/
theorem Drawn.plot {cover cover' : Nat → Nat → Prop} {fb : Screen} {acc₀ acc : DrawAcc}
    (h : Drawn cover fb acc₀ acc) (row col : Nat) (bit : Bool)
    (hc : ∀ r c, cover' r c ↔ cover r c ∨ (bit = true ∧ r % 32 = row % 32 ∧ c % 64 = col % 64))
    (hnew : ∀ r c, bit = true → r % 32 = row % 32 → c % 64 = col % 64 → ¬cover r c) :
    Drawn cover' fb acc₀ (plot acc row col bit) := by
  cases bit with
  | false =>
    have hc' : cover' = cover := by funext r c; simpa using hc r c
    rw [hc']; exact h
  | true =>
    have hnew' : ¬cover row col := hnew row col rfl rfl rfl
    refine ⟨fun r c hrc => ?_, fun r c hrc => ?_, ?_, ?_⟩
    · simp only [Machine.plot, if_true, Screen.pixel_flip]
      rcases (hc r c).1 hrc with h1 | ⟨-, h2, h3⟩
      · have : ¬(r % 32 = row % 32 ∧ c % 64 = col % 64) := fun e => hnew r c rfl e.1 e.2 h1
        rw [if_neg this, h.flipped r c h1]
      · rw [if_pos ⟨h2, h3⟩, h.kept r c (hnew r c rfl h2 h3)]
    · simp only [Machine.plot, if_true, Screen.pixel_flip]
      have h1 : ¬cover r c := fun e => hrc ((hc r c).2 (.inl e))
      have h2 : ¬(r % 32 = row % 32 ∧ c % 64 = col % 64) := fun e => hrc ((hc r c).2 (.inr ⟨rfl, e.1, e.2⟩))
      rw [if_neg h2, h.kept r c h1]
    · simp only [Machine.plot, if_true, Bool.or_eq_true, h.collided, h.kept row col hnew']
      constructor
      · rintro ((h1 | ⟨r, c, h1, h2⟩) | h1)
        · exact .inl h1
        · exact .inr ⟨r, c, (hc r c).2 (.inl h1), h2⟩
        · exact .inr ⟨row, col, (hc row col).2 (.inr ⟨rfl, rfl, rfl⟩), h1⟩
      · rintro (h1 | ⟨r, c, h1, h2⟩)
        · exact .inl (.inl h1)
        · rcases (hc r c).1 h1 with h3 | ⟨-, h3, h4⟩
          · exact .inl (.inr ⟨r, c, h3, h2⟩)
          · refine .inr ?_
            simpa only [Screen.pixel, h3, h4] using h2
    · simp only [Machine.plot, if_true, true_iff]
      exact .inr ⟨row, col, (hc row col).2 (.inr ⟨rfl, rfl, rfl⟩)⟩

theorem Drawn.refl (fb : Screen) (acc : DrawAcc) (h : acc.fb = fb) : Drawn (fun _ _ => False) fb acc acc :=
  ⟨fun _ _ => False.elim, fun _ _ _ => by rw [h], by simp, by simp⟩

/-- One sprite row: the columns covered join the pixels covered so far, if no pixel of this row was covered before. -/
theorem Drawn.cols {cover : Nat → Nat → Prop} {fb : Screen} {acc₀ acc : DrawAcc} (h : Drawn cover fb acc₀ acc)
    (b : Byte) (row x0 k : Nat) (hk : k ≤ 64) (hnew : ∀ r c, r % 32 = row % 32 → ¬cover r c) :
    Drawn (fun r c => cover r c ∨ ColsCover b row x0 k r c) fb acc₀ (drawCols b (row % 32) x0 k acc) := by
  induction k with
  | zero => simpa [ColsCover, drawCols] using h
  | succ k ih =>
    refine Drawn.plot (ih (by omega)) (row % 32) ((x0 + k) % 64) (spriteBit b k) (fun r c => ?_) ?_
    · simp only [ColsCover, Nat.mod_mod]
      constructor
      · rintro (h1 | ⟨col, h1, h2, h3, h4⟩)
        · exact .inl (.inl h1)
        · rcases Nat.lt_succ_iff_lt_or_eq.1 h1 with h5 | rfl
          · exact .inl (.inr ⟨col, h5, h2, h3, h4⟩)
          · exact .inr ⟨h4, h2, h3⟩
      · rintro ((h1 | ⟨col, h1, h2, h3, h4⟩) | ⟨h1, h2, h3⟩)
        · exact .inl h1
        · exact .inr ⟨col, by omega, h2, h3, h4⟩
        · exact .inr ⟨k, by omega, h2, h3, h1⟩
    · simp only [Nat.mod_mod]
      rintro r c - hr hcc (h1 | ⟨col, h1, h2, h3, h4⟩)
      · exact hnew r c hr h1
      · omega

/-- The whole sprite: after `k` rows exactly the pixels those rows cover are flipped, each once, since up to 32 rows are
distinct (R122 (c)). -/
theorem drawRows_drawn (s : State) (x0 y0 k : Nat) (hk : k ≤ 32) (acc : DrawAcc) :
    Drawn (RowsCover s x0 y0 k) acc.fb acc (drawRows s x0 y0 k acc) := by
  induction k with
  | zero =>
    have : RowsCover s x0 y0 0 = fun _ _ => False := by funext r c; simp [RowsCover]
    rw [this]; exact Drawn.refl _ _ rfl
  | succ k ih =>
    have hc : RowsCover s x0 y0 (k + 1) = fun r c =>
        RowsCover s x0 y0 k r c ∨ ColsCover (s.byteAt (s.effective k)) (y0 + k) x0 8 r c := by
      funext r c
      refine propext ⟨?_, ?_⟩
      · rintro ⟨row, h1, h2⟩
        rcases Nat.lt_succ_iff_lt_or_eq.1 h1 with h3 | rfl
        · exact .inl ⟨row, h3, h2⟩
        · exact .inr h2
      · rintro (⟨row, h1, h2⟩ | h1)
        · exact ⟨row, by omega, h2⟩
        · exact ⟨k, by omega, h1⟩
    rw [hc]
    refine Drawn.cols (ih (by omega)) _ (y0 + k) x0 8 (by decide) ?_
    rintro r c hr ⟨row, h1, col, h2, h3, h4, h5⟩
    omega

end Sys2Proof.Machine
end

