-- ==== Sys2Proof/Laws/PerInstr.lean ====
section
/-! SUPPORT. The statement made per instruction: the encoder's word stands in the instruction's row of spec/30_encoding.md R49, and that row is one of the table's. -/

namespace Sys2Proof.Laws.RowFits

/-- The word the encoder gives an instruction has the fixed bits of the instruction's own row, and the row is listed. -/
def Statement (i : Instr) : Prop := i.row.fits (encode i) = true ∧ i.row ∈ opcodeRows

/-- A mask that keeps whole nibbles of a word keeps or clears each of its four fields. -/
theorem and_gxyn (g x y n g' x' y' n' : Nibble) :
    gxyn g x y n &&& gxyn g' x' y' n' = gxyn (g &&& g') (x &&& x') (y &&& y') (n &&& n') :=
  (BitVec.and_append (x₁ := g ++ x ++ y) (x₂ := g' ++ x' ++ y')).trans
    (congrArg (· ++ (n &&& n')) ((BitVec.and_append (x₁ := g ++ x) (x₂ := g' ++ x')).trans
      (congrArg (· ++ (y &&& y')) BitVec.and_append)))

theorem and_gxkk (g x g' x' : Nibble) (kk kk' : Byte) :
    gxkk g x kk &&& gxkk g' x' kk' = gxkk (g &&& g') (x &&& x') (kk &&& kk') :=
  (BitVec.and_append (x₁ := g ++ x) (x₂ := g' ++ x')).trans (congrArg (· ++ (kk &&& kk')) BitVec.and_append)

theorem and_gnnn (g g' : Nibble) (nnn nnn' : Addr12) :
    gnnn g nnn &&& gnnn g' nnn' = gnnn (g &&& g') (nnn &&& nnn') :=
  BitVec.and_append

theorem and_15 (g : Nibble) : g &&& 15#4 = g := by revert g; decide

theorem and_255 (kk : Byte) : kk &&& 255#8 = kk := by revert kk; decide

/-- Rows that fix the group only, for each view. -/
theorem mask_gnnn (g : Nibble) (nnn : Addr12) : gnnn g nnn &&& 0xF000#16 = gnnn g 0 := by
  rw [show (0xF000#16) = gnnn 0xF 0 by decide, and_gnnn]
  simp [and_15]

theorem mask_gxkk (g x : Nibble) (kk : Byte) : gxkk g x kk &&& 0xF000#16 = gxkk g 0 0 := by
  rw [show (0xF000#16) = gxkk 0xF 0 0 by decide, and_gxkk]
  simp [and_15]

theorem mask_gxyn (g x y n : Nibble) : gxyn g x y n &&& 0xF000#16 = gxyn g 0 0 0 := by
  rw [show (0xF000#16) = gxyn 0xF 0 0 0 by decide, and_gxyn]
  simp [and_15]

/-- Rows that fix the group and `n`. -/
theorem mask_gxyn_n (g x y n : Nibble) : gxyn g x y n &&& 0xF00F#16 = gxyn g 0 0 n := by
  rw [show (0xF00F#16) = gxyn 0xF 0 0 0xF by decide, and_gxyn]
  simp [and_15]

/-- Rows that fix the group and `kk`. -/
theorem mask_gxkk_kk (g x : Nibble) (kk : Byte) : gxkk g x kk &&& 0xF0FF#16 = gxkk g 0 kk := by
  rw [show (0xF0FF#16) = gxkk 0xF 0 0xFF by decide, and_gxkk]
  simp [and_15, and_255]

theorem fits_iff (r : Row) (op : Word) : r.fits op = true ↔ op &&& r.mask = r.mtch := beq_iff_eq

theorem cls : Statement .cls :=
  ⟨by decide, by decide⟩
theorem ret : Statement .ret :=
  ⟨by decide, by decide⟩
theorem jp (nnn : Addr12) : Statement (.jp nnn) :=
  ⟨(fits_iff _ _).2 ((mask_gnnn _ _).trans rfl), List.mem_of_elem_eq_true rfl⟩
theorem call (nnn : Addr12) : Statement (.call nnn) :=
  ⟨(fits_iff _ _).2 ((mask_gnnn _ _).trans rfl), List.mem_of_elem_eq_true rfl⟩
theorem seKk (x : Nibble) (kk : Byte) : Statement (.seKk x kk) :=
  ⟨(fits_iff _ _).2 ((mask_gxkk _ _ _).trans rfl), List.mem_of_elem_eq_true rfl⟩
theorem sneKk (x : Nibble) (kk : Byte) : Statement (.sneKk x kk) :=
  ⟨(fits_iff _ _).2 ((mask_gxkk _ _ _).trans rfl), List.mem_of_elem_eq_true rfl⟩
theorem seVy (x y : Nibble) : Statement (.seVy x y) :=
  ⟨(fits_iff _ _).2 ((mask_gxyn_n _ _ _ _).trans rfl), List.mem_of_elem_eq_true rfl⟩
theorem ldKk (x : Nibble) (kk : Byte) : Statement (.ldKk x kk) :=
  ⟨(fits_iff _ _).2 ((mask_gxkk _ _ _).trans rfl), List.mem_of_elem_eq_true rfl⟩
theorem addKk (x : Nibble) (kk : Byte) : Statement (.addKk x kk) :=
  ⟨(fits_iff _ _).2 ((mask_gxkk _ _ _).trans rfl), List.mem_of_elem_eq_true rfl⟩
theorem ldVy (x y : Nibble) : Statement (.ldVy x y) :=
  ⟨(fits_iff _ _).2 ((mask_gxyn_n _ _ _ _).trans rfl), List.mem_of_elem_eq_true rfl⟩
theorem orVy (x y : Nibble) : Statement (.orVy x y) :=
  ⟨(fits_iff _ _).2 ((mask_gxyn_n _ _ _ _).trans rfl), List.mem_of_elem_eq_true rfl⟩
theorem andVy (x y : Nibble) : Statement (.andVy x y) :=
  ⟨(fits_iff _ _).2 ((mask_gxyn_n _ _ _ _).trans rfl), List.mem_of_elem_eq_true rfl⟩
theorem xorVy (x y : Nibble) : Statement (.xorVy x y) :=
  ⟨(fits_iff _ _).2 ((mask_gxyn_n _ _ _ _).trans rfl), List.mem_of_elem_eq_true rfl⟩
theorem addVy (x y : Nibble) : Statement (.addVy x y) :=
  ⟨(fits_iff _ _).2 ((mask_gxyn_n _ _ _ _).trans rfl), List.mem_of_elem_eq_true rfl⟩
theorem subVy (x y : Nibble) : Statement (.subVy x y) :=
  ⟨(fits_iff _ _).2 ((mask_gxyn_n _ _ _ _).trans rfl), List.mem_of_elem_eq_true rfl⟩
theorem shr (x y : Nibble) : Statement (.shr x y) :=
  ⟨(fits_iff _ _).2 ((mask_gxyn_n _ _ _ _).trans rfl), List.mem_of_elem_eq_true rfl⟩
theorem subnVy (x y : Nibble) : Statement (.subnVy x y) :=
  ⟨(fits_iff _ _).2 ((mask_gxyn_n _ _ _ _).trans rfl), List.mem_of_elem_eq_true rfl⟩
theorem shl (x y : Nibble) : Statement (.shl x y) :=
  ⟨(fits_iff _ _).2 ((mask_gxyn_n _ _ _ _).trans rfl), List.mem_of_elem_eq_true rfl⟩
theorem sneVy (x y : Nibble) : Statement (.sneVy x y) :=
  ⟨(fits_iff _ _).2 ((mask_gxyn_n _ _ _ _).trans rfl), List.mem_of_elem_eq_true rfl⟩
theorem ldI (nnn : Addr12) : Statement (.ldI nnn) :=
  ⟨(fits_iff _ _).2 ((mask_gnnn _ _).trans rfl), List.mem_of_elem_eq_true rfl⟩
theorem jpV0 (nnn : Addr12) : Statement (.jpV0 nnn) :=
  ⟨(fits_iff _ _).2 ((mask_gnnn _ _).trans rfl), List.mem_of_elem_eq_true rfl⟩
theorem rnd (x : Nibble) (kk : Byte) : Statement (.rnd x kk) :=
  ⟨(fits_iff _ _).2 ((mask_gxkk _ _ _).trans rfl), List.mem_of_elem_eq_true rfl⟩
theorem drw (x y n : Nibble) : Statement (.drw x y n) :=
  ⟨(fits_iff _ _).2 ((mask_gxyn _ _ _ _).trans rfl), List.mem_of_elem_eq_true rfl⟩
theorem skp (x : Nibble) : Statement (.skp x) :=
  ⟨(fits_iff _ _).2 ((mask_gxkk_kk _ _ _).trans rfl), List.mem_of_elem_eq_true rfl⟩
theorem sknp (x : Nibble) : Statement (.sknp x) :=
  ⟨(fits_iff _ _).2 ((mask_gxkk_kk _ _ _).trans rfl), List.mem_of_elem_eq_true rfl⟩
theorem ldVxDt (x : Nibble) : Statement (.ldVxDt x) :=
  ⟨(fits_iff _ _).2 ((mask_gxkk_kk _ _ _).trans rfl), List.mem_of_elem_eq_true rfl⟩
theorem ldVxK (x : Nibble) : Statement (.ldVxK x) :=
  ⟨(fits_iff _ _).2 ((mask_gxkk_kk _ _ _).trans rfl), List.mem_of_elem_eq_true rfl⟩
theorem ldDtVx (x : Nibble) : Statement (.ldDtVx x) :=
  ⟨(fits_iff _ _).2 ((mask_gxkk_kk _ _ _).trans rfl), List.mem_of_elem_eq_true rfl⟩
theorem ldStVx (x : Nibble) : Statement (.ldStVx x) :=
  ⟨(fits_iff _ _).2 ((mask_gxkk_kk _ _ _).trans rfl), List.mem_of_elem_eq_true rfl⟩
theorem addIVx (x : Nibble) : Statement (.addIVx x) :=
  ⟨(fits_iff _ _).2 ((mask_gxkk_kk _ _ _).trans rfl), List.mem_of_elem_eq_true rfl⟩
theorem ldFVx (x : Nibble) : Statement (.ldFVx x) :=
  ⟨(fits_iff _ _).2 ((mask_gxkk_kk _ _ _).trans rfl), List.mem_of_elem_eq_true rfl⟩
theorem ldBVx (x : Nibble) : Statement (.ldBVx x) :=
  ⟨(fits_iff _ _).2 ((mask_gxkk_kk _ _ _).trans rfl), List.mem_of_elem_eq_true rfl⟩
theorem storeRegs (x : Nibble) : Statement (.storeRegs x) :=
  ⟨(fits_iff _ _).2 ((mask_gxkk_kk _ _ _).trans rfl), List.mem_of_elem_eq_true rfl⟩
theorem loadRegs (x : Nibble) : Statement (.loadRegs x) :=
  ⟨(fits_iff _ _).2 ((mask_gxkk_kk _ _ _).trans rfl), List.mem_of_elem_eq_true rfl⟩

end Sys2Proof.Laws.RowFits
end

