-- ==== Sys2Proof/Laws/Step.lean ====
section
/-! SUPPORT. What the fetch, the decode and the step can do, said once. -/

namespace Sys2Proof.Machine

/-- Fetch and decode: out of range, illegal, or an instruction; nothing else. -/
theorem fetchDecode_cases (s : State) :
    (0xFFE < s.pc.toNat ∧ fetchDecode s = .error (.addressOutOfRange (max s.pc.toNat 0x1000))) ∨
    (s.pc.toNat ≤ 0xFFE ∧ decodeWord (s.wordAt s.pc.toNat) = none ∧
      fetchDecode s = .error (.unknownOpcode (s.wordAt s.pc.toNat))) ∨
    (s.pc.toNat ≤ 0xFFE ∧ ∃ i, decodeWord (s.wordAt s.pc.toNat) = some i ∧ fetchDecode s = .ok i) := by
  unfold fetchDecode fetch
  by_cases h : s.pc.toNat ≤ 0xFFE
  · rw [if_pos h]
    cases hd : decodeWord (s.wordAt s.pc.toNat) with
    | none => exact .inr (.inl ⟨h, rfl, by simp [hd]⟩)
    | some i => exact .inr (.inr ⟨h, i, rfl, by simp [hd]⟩)
  · rw [if_neg h]; exact .inl ⟨by omega, rfl⟩

theorem fetchDecode_ok_iff (s : State) (i : Instr) :
    fetchDecode s = .ok i ↔ s.pc.toNat ≤ 0xFFE ∧ decodeWord (s.wordAt s.pc.toNat) = some i := by
  rcases fetchDecode_cases s with ⟨h1, h2⟩ | ⟨h1, h2, h3⟩ | ⟨h1, j, h2, h3⟩
  · rw [h2]; simp; omega
  · rw [h3]; simp [h2]
  · rw [h3]; simp [h1, h2]

/-- A step that answers a next state ran an instruction that was fetched and decoded there. -/
theorem step_next_iff (s t : State) :
    step s = .next t ↔ ∃ i, fetchDecode s = .ok i ∧ exec i s = .next t := by
  unfold step
  cases h : fetchDecode s with
  | error f => simp
  | ok i => simp

/-- Memory decides what is fetched: the same pc and the same bytes give the same fetch and decode. -/
theorem fetchDecode_congr (s t : State) (hp : t.pc = s.pc) (hm : t.mem = s.mem) : fetchDecode t = fetchDecode s := by
  simp only [fetchDecode, fetch, State.wordAt, State.byteAt, hp, hm]

/-- A word placed where the next step fetches is the word fetched there. -/
theorem wordAt_placeWord (s : State) (w : Word) (h : s.pc.toNat ≤ 0xFFE) :
    (s.placeWord w).pc = s.pc ∧ (s.placeWord w).wordAt s.pc.toNat = w := by
  unfold State.placeWord
  rw [if_pos h]
  refine ⟨rfl, ?_⟩
  simp only [State.wordAt, State.byteAt_storeByte]
  simpa using wordOfBytes_hiByte_loByte w

end Sys2Proof.Machine
end

