-- ==== Sys2Proof/Tests/Slice0.lean ====
section
/-! SUPPORT. The model's own tests. Expected results are the spec's: V-, S- and P-numbers are those of spec/95_test_vectors.md, R-numbers the rules. After them, one witness or more for every obligation that has hypotheses. No expected value rests on an open parameter. -/

namespace Sys2Proof.Tests

open Sys2Proof Sys2Proof.Machine

/-! ### Helpers -/

/-- The fresh machine, without a program. -/
def fresh : State := State.reset

/-- A word placed at pc and run for one step, as the single-instruction vectors say. -/
def run (w : Word) (s : State) : Result := step (s.placeWord w)

/-- What is read off the next state; none after an error. -/
def seen {α : Type} (f : State → α) : Result → Option α
  | .next t => some (f t)
  | .fault _ => none
  | .refused _ => none

/-- What is read off the state after one step on a word placed at pc. -/
def after {α : Type} (w : Word) (s : State) (f : State → α) : Option α := seen f (run w s)

/-- The error of an answer, if it is one. -/
def errorOf : Result → Option Fault
  | .fault f => some f
  | .next _ => none
  | .refused _ => none

/-- Bytes put into memory. -/
def withBytes (a : Nat) (bs : List Byte) (s : State) : State := { s with mem := s.mem.writeBytes a bs }

/-- SP set, all stack entries `w`. -/
def withStack (sp : Fin 17) (w : Word) (s : State) : State := { s with sp := sp, stack := Vector.replicate 16 w }

/-- The keys of a snapshot down. -/
def withKeys (snapshot : BitVec 16) (s : State) : State := (HostEvent.keys snapshot).apply s

/-- One pixel flipped. -/
def withFlip (r c : Nat) (s : State) : State := s.setFb (s.fb.flip r c)

/-! ### Well-formedness: ill-formed terms refused, the last legal ones accepted -/

/-- R51: an illegal word of each of the six groups that have any. -/
theorem test_illegal_words_are_ill_formed :
    wordWellFormed 0x0123 = false ∧ wordWellFormed 0x5121 = false ∧ wordWellFormed 0x812F = false ∧
    wordWellFormed 0x912F = false ∧ wordWellFormed 0xE39F = false ∧ wordWellFormed 0xF075 = false := by decide

theorem test_legal_words_are_well_formed :
    wordWellFormed 0x00EE = true ∧ wordWellFormed 0x5120 = true ∧ wordWellFormed 0x812E = true ∧
    wordWellFormed 0xFFFF = false := by decide

/-- R4: FONT_BASE + 80 <= 0x200. -/
theorem test_font_base_limit : fontBaseWellFormed 432 = true ∧ fontBaseWellFormed 433 = false := by decide

/-- V-RST-3, V-RST-4. -/
theorem test_rom_limit :
    romWellFormed (List.replicate 3584 0) = true ∧ romWellFormed (List.replicate 3585 0) = false := by
  simp only [romWellFormed, List.length_replicate]; decide

/-- R49: no word fits two rows. -/
theorem test_rows_exclude_each_other :
    opcodeRows.Pairwise fun a b => a.mtch &&& a.mask &&& b.mask ≠ b.mtch &&& a.mask &&& b.mask := by decide

/-! ### Decoding: each constructor from a word written out from R49 -/

theorem test_decode_00E0 : decodeWord 0b0000000011100000 = some .cls := by decide
theorem test_decode_00EE : decodeWord 0b0000000011101110 = some .ret := by decide
theorem test_decode_1nnn : decodeWord 0b0001101010111100 = some (.jp 0xABC) := by decide
theorem test_decode_2nnn : decodeWord 0b0010001000001000 = some (.call 0x208) := by decide
theorem test_decode_3xkk : decodeWord 0b0011101001000010 = some (.seKk 0xA 0x42) := by decide
theorem test_decode_4xkk : decodeWord 0b0100101001000010 = some (.sneKk 0xA 0x42) := by decide
theorem test_decode_5xy0 : decodeWord 0b0101000100100000 = some (.seVy 1 2) := by decide
theorem test_decode_6xkk : decodeWord 0b0110001110101011 = some (.ldKk 3 0xAB) := by decide
theorem test_decode_7xkk : decodeWord 0b0111001100000001 = some (.addKk 3 1) := by decide
theorem test_decode_8xy0 : decodeWord 0b1000000100100000 = some (.ldVy 1 2) := by decide
theorem test_decode_8xy1 : decodeWord 0b1000000100100001 = some (.orVy 1 2) := by decide
theorem test_decode_8xy2 : decodeWord 0b1000000100100010 = some (.andVy 1 2) := by decide
theorem test_decode_8xy3 : decodeWord 0b1000000100100011 = some (.xorVy 1 2) := by decide
theorem test_decode_8xy4 : decodeWord 0b1000000100100100 = some (.addVy 1 2) := by decide
theorem test_decode_8xy5 : decodeWord 0b1000000100100101 = some (.subVy 1 2) := by decide
theorem test_decode_8xy6 : decodeWord 0b1000000100100110 = some (.shr 1 2) := by decide
theorem test_decode_8xy7 : decodeWord 0b1000000100100111 = some (.subnVy 1 2) := by decide
theorem test_decode_8xyE : decodeWord 0b1000000100101110 = some (.shl 1 2) := by decide
theorem test_decode_9xy0 : decodeWord 0b1001000100100000 = some (.sneVy 1 2) := by decide
theorem test_decode_Annn : decodeWord 0b1010000100100011 = some (.ldI 0x123) := by decide
theorem test_decode_Bnnn : decodeWord 0b1011001100000000 = some (.jpV0 0x300) := by decide
theorem test_decode_Cxkk : decodeWord 0b1100001100001111 = some (.rnd 3 0x0F) := by decide
theorem test_decode_Dxyn : decodeWord 0b1101000100101111 = some (.drw 1 2 0xF) := by decide
theorem test_decode_Ex9E : decodeWord 0b1110001110011110 = some (.skp 3) := by decide
theorem test_decode_ExA1 : decodeWord 0b1110001110100001 = some (.sknp 3) := by decide
theorem test_decode_Fx07 : decodeWord 0b1111001100000111 = some (.ldVxDt 3) := by decide
theorem test_decode_Fx0A : decodeWord 0b1111001100001010 = some (.ldVxK 3) := by decide
theorem test_decode_Fx15 : decodeWord 0b1111001100010101 = some (.ldDtVx 3) := by decide
theorem test_decode_Fx18 : decodeWord 0b1111001100011000 = some (.ldStVx 3) := by decide
theorem test_decode_Fx1E : decodeWord 0b1111001000011110 = some (.addIVx 2) := by decide
theorem test_decode_Fx29 : decodeWord 0b1111010100101001 = some (.ldFVx 5) := by decide
theorem test_decode_Fx33 : decodeWord 0b1111001100110011 = some (.ldBVx 3) := by decide
theorem test_decode_Fx55 : decodeWord 0b1111001001010101 = some (.storeRegs 2) := by decide
theorem test_decode_Fx65 : decodeWord 0b1111001001100101 = some (.loadRegs 2) := by decide

/-- Section 4.1 of the source, worked for 0xD12F in spec/95_test_vectors.md. -/
theorem test_fields_of_D12F :
    fields 0xD12F = { op := 0xD12F, group := 0xD, x := 1, y := 2, n := 0xF, kk := 0x2F, nnn := 0x12F } := by decide

/-- The table's own numbering of bits, and the byte order of R45. -/
theorem test_table_word : decodeTableWord 16 0xD12F = some (.drw 1 2 0xF) ∧ decodeTableWord 16 0x5121 = none ∧
    encodeBytes (.drw 1 2 0xF) = [0xD1, 0x2F] := by decide

theorem test_bytes_are_rejected_by_name :
    decodeBytes [0x12] = .error (.truncated 1) ∧ decodeBytes [0x00, 0xE1] = .error (.unknownOpcode 0x00E1) := by
  constructor <;> rfl

/-! ### Control flow -/

/-- V-DRW-12. -/
theorem test_cls : after 0x00E0 (withFlip 31 63 (withFlip 0 0 fresh))
    (fun t => (t.pixel 0 0, t.pixel 31 63, t.rp, t.pc)) = some (false, false, true, 0x0202) := by decide

/-- V-FLOW-9. -/
theorem test_ret_odd : after 0x00EE (withStack 16 0x0ABD fresh) (fun t => (t.pc, t.sp)) =
    some (0x0ABD, 15) := by decide

/-- V-FLOW-8. -/
theorem test_ret_underflow : errorOf (run 0x00EE fresh) = some .stackUnderflow := by decide

/-- V-FLOW-3. -/
theorem test_jp_odd : after 0x1FFF fresh (fun t => t.pc) = some 0x0FFF := by decide

/-- V-FLOW-5. -/
theorem test_call_last_slot : after 0x2300 (withStack 15 0 fresh)
    (fun t => (t.pc, t.sp, t.stackAt 15, t.stackAt 14)) = some (0x0300, 16, 0x0202, 0) := by decide

/-- V-FLOW-6. -/
theorem test_call_overflow : errorOf (run 0x2300 (withStack 16 0 fresh)) = some .stackOverflow := by decide

/-- V-FLOW-11: not masked. -/
theorem test_jp_v0_above_memory : after 0xBFFF (fresh.writeV 0 0xFF) (fun t => t.pc) = some 0x10FE := by decide

/-! ### Skips -/

/-- V-SKIP-1, V-SKIP-2. -/
theorem test_se_kk : after 0x3A42 (fresh.writeV 0xA 0x42) (fun t => t.pc) = some 0x0204 := by decide
theorem test_se_kk_not : after 0x3A42 (fresh.writeV 0xA 0x43) (fun t => t.pc) = some 0x0202 := by decide

/-- V-SKIP-3, V-SKIP-4. -/
theorem test_sne_kk : after 0x4A42 (fresh.writeV 0xA 0x42) (fun t => t.pc) = some 0x0202 := by decide
theorem test_sne_kk_not : after 0x4A42 (fresh.writeV 0xA 0x43) (fun t => t.pc) = some 0x0204 := by decide

/-- V-SKIP-5, V-SKIP-6. -/
theorem test_se_vy : after 0x5120 ((fresh.writeV 1 7).writeV 2 7) (fun t => t.pc) = some 0x0204 := by decide
theorem test_se_vy_not : after 0x5120 ((fresh.writeV 1 7).writeV 2 8) (fun t => t.pc) = some 0x0202 := by decide

/-- V-SKIP-8, V-SKIP-9. -/
theorem test_sne_vy : after 0x9120 ((fresh.writeV 1 7).writeV 2 8) (fun t => t.pc) = some 0x0204 := by decide
theorem test_sne_vy_not : after 0x9120 ((fresh.writeV 1 7).writeV 2 7) (fun t => t.pc) = some 0x0202 := by decide

/-- V-SKIP-17, V-SKIP-14: only the low nibble names the key. -/
theorem test_skp : after 0xE39E (withKeys 0x0400 (fresh.writeV 3 0x1A)) (fun t => t.pc) = some 0x0204 := by decide
theorem test_skp_not : after 0xE39E (fresh.writeV 3 0x0A) (fun t => t.pc) = some 0x0202 := by decide

/-- V-SKIP-15, V-SKIP-16. -/
theorem test_sknp : after 0xE3A1 (withKeys 0x0400 (fresh.writeV 3 0x0A)) (fun t => t.pc) = some 0x0202 := by decide
theorem test_sknp_not : after 0xE3A1 (fresh.writeV 3 0x0A) (fun t => t.pc) = some 0x0204 := by decide

/-! ### Constants, ALU, random -/

/-- V-ALU-1. -/
theorem test_ld_kk : after 0x63AB fresh (fun t => (t.readV 3, t.readV 0xF, t.pc)) =
    some (0xAB, 0, 0x0202) := by decide

/-- V-ALU-3, V-ALU-4: wraps, VF is no flag here. -/
theorem test_add_kk_wraps : after 0x7301 ((fresh.writeV 3 0xFF).writeV 0xF 0x5A)
    (fun t => (t.readV 3, t.readV 0xF)) = some (0x00, 0x5A) := by decide
theorem test_add_kk_to_vf : after 0x7F01 (fresh.writeV 0xF 0xFF) (fun t => t.readV 0xF) = some 0 := by decide

/-- V-ALU-6. -/
theorem test_ld_vy : after 0x8120 ((fresh.writeV 1 0x11).writeV 2 0x22)
    (fun t => (t.readV 1, t.readV 2)) = some (0x22, 0x22) := by decide

/-- V-ALU-7. -/
theorem test_or : after 0x8121 (((fresh.writeV 1 0xF0).writeV 2 0x0F).writeV 0xF 1)
    (fun t => (t.readV 1, t.readV 0xF)) = some (0xFF, 1) := by decide

/-- V-ALU-8. -/
theorem test_and : after 0x8122 (((fresh.writeV 1 0xFC).writeV 2 0x3F).writeV 0xF 1)
    (fun t => (t.readV 1, t.readV 0xF)) = some (0x3C, 1) := by decide

/-- V-ALU-9. -/
theorem test_xor : after 0x8123 (((fresh.writeV 1 0xFF).writeV 2 0x0F).writeV 0xF 1)
    (fun t => (t.readV 1, t.readV 0xF)) = some (0xF0, 1) := by decide

/-- V-ALU-12, V-ALU-15. -/
theorem test_add_no_carry : after 0x8124 (((fresh.writeV 1 0x80).writeV 2 0x7F).writeV 0xF 1)
    (fun t => (t.readV 1, t.readV 0xF)) = some (0xFF, 0) := by decide
theorem test_add_into_vf : after 0x8F14 ((fresh.writeV 0xF 0xFF).writeV 1 1)
    (fun t => t.readV 0xF) = some 1 := by decide

/-- V-ALU-19, V-ALU-22. -/
theorem test_sub_borrow : after 0x8125 (((fresh.writeV 1 3).writeV 2 5).writeV 0xF 1)
    (fun t => (t.readV 1, t.readV 0xF)) = some (0xFE, 0) := by decide
theorem test_sub_into_vf : after 0x8F15 ((fresh.writeV 0xF 5).writeV 1 3)
    (fun t => t.readV 0xF) = some 1 := by decide

/-- V-ALU-26, V-ALU-28: `V[y]` is ignored. -/
theorem test_shr : after 0x8126 ((fresh.writeV 1 0x05).writeV 2 0xF0)
    (fun t => (t.readV 1, t.readV 0xF, t.readV 2)) = some (0x02, 1, 0xF0) := by decide
theorem test_shr_vf : after 0x8F06 (fresh.writeV 0xF 3) (fun t => t.readV 0xF) = some 1 := by decide

/-- V-ALU-23, V-ALU-25. -/
theorem test_subn : after 0x8127 ((fresh.writeV 1 3).writeV 2 5)
    (fun t => (t.readV 1, t.readV 0xF)) = some (0x02, 1) := by decide
theorem test_subn_equal : after 0x8127 ((fresh.writeV 1 5).writeV 2 5)
    (fun t => (t.readV 1, t.readV 0xF)) = some (0x00, 1) := by decide

/-- V-ALU-29, V-ALU-31. -/
theorem test_shl : after 0x812E ((fresh.writeV 1 0x81).writeV 2 0x0F)
    (fun t => (t.readV 1, t.readV 0xF)) = some (0x02, 1) := by decide
theorem test_shl_vf : after 0x8F0E (fresh.writeV 0xF 0x80) (fun t => t.readV 0xF) = some 1 := by decide

/-- V-ALU-34's use of the byte, whichever it is: `V[x] = rand & kk`, one draw. -/
theorem test_rnd : after 0xC30F fresh (fun t => (t.readV 3, t.draws, t.pc)) =
    some (Config.randomByte 0 &&& 0x0F, 1, 0x0202) := rfl

/-! ### Index register and memory -/

/-- V-IDX-2. -/
theorem test_ld_i : after 0xAFFF (fresh.setI 0x1234) (fun t => (t.i, t.pc)) = some (0x0FFF, 0x0202) := by decide

/-- V-IDX-5 with the quirk off, V-IDX-6 to V-IDX-9 with it on. -/
theorem test_add_i_without_quirk : (fun t : State => (t.i, t.readV 0xF))
    (addIndex false 2 (((fresh.setI 0x0FFE).writeV 2 3).writeV 0xF 7)) = (0x1001, 7) := by decide
theorem test_add_i_with_quirk :
    (fun t : State => (t.i, t.readV 0xF)) (addIndex true 2 (((fresh.setI 0x0FFE).writeV 2 3).writeV 0xF 7)) =
      (0x1001, 1) ∧
    (fun t : State => (t.i, t.readV 0xF)) (addIndex true 2 ((fresh.setI 0x0FFF).writeV 0xF 7)) = (0x0FFF, 0) ∧
    (fun t : State => (t.i, t.readV 0xF)) (addIndex true 2 ((fresh.setI 0xFFFF).writeV 2 1)) = (0x0000, 1) ∧
    (fun t : State => (t.i, t.readV 0xF)) (addIndex true 0xF ((fresh.setI 0x0FF0).writeV 0xF 0x20)) =
      (0x1010, 1) := by decide

/-- V-IDX-12, V-IDX-13: the font base given. -/
theorem test_ld_f_low_nibble : (pointAtGlyph 0x000 5 (fresh.writeV 5 0xA7)).i = 0x0023 := by decide
theorem test_ld_f_last_glyph : (pointAtGlyph 0x050 5 (fresh.writeV 5 0x0F)).i = 0x009B := by decide

/-- V-IDX-15, V-IDX-17. -/
theorem test_bcd_leading_zeros :
    after 0xF333 (withBytes 0x300 [0xAA, 0xBB, 0xCC] ((fresh.writeV 3 0x07).setI 0x300))
      (fun t => (t.byteAt 0x300, t.byteAt 0x301, t.byteAt 0x302, t.i)) = some (0, 0, 7, 0x300) := by decide
theorem test_bcd_out_of_range : errorOf (run 0xF333 ((fresh.writeV 3 0xFF).setI 0x0FFE)) =
    some (.addressOutOfRange 0x1000) := by decide

/-- V-IDX-19, V-IDX-21. -/
theorem test_store_regs :
    after 0xF255 (((((fresh.writeV 0 0x11).writeV 1 0x22).writeV 2 0x33).writeV 3 0x44).setI 0x0400)
      (fun t => (t.byteAt 0x400, t.byteAt 0x401, t.byteAt 0x402, t.byteAt 0x403, t.i)) =
    some (0x11, 0x22, 0x33, 0, 0x0400) := by decide
theorem test_store_regs_out_of_range : errorOf (run 0xF155 ((fresh.writeV 0 0x11).setI 0x0FFF)) =
    some (.addressOutOfRange 0x1000) := by decide

/-- V-IDX-24, V-IDX-25. -/
theorem test_load_regs :
    after 0xF265 (withBytes 0x400 [0xDE, 0xAD, 0xBE, 0xEF] ((fresh.writeV 3 0x99).setI 0x0400))
      (fun t => (t.readV 0, t.readV 1, t.readV 2, t.readV 3, t.i)) = some (0xDE, 0xAD, 0xBE, 0x99, 0x0400) := by decide
theorem test_load_regs_out_of_range : errorOf (run 0xF165 ((fresh.writeV 0 0x55).setI 0x0FFF)) =
    some (.addressOutOfRange 0x1000) := by decide

/-! ### Display -/

/-- V-DRW-9: x = F, the old VF is the column; and the orientation of the grid. -/
theorem test_drw_column_from_vf :
    after 0xDF01 (withBytes 0x300 [0x80] (((fresh.writeV 0xF 0x0A).writeV 0 2).setI 0x300))
      (fun t => (t.pixel 2 10, t.pixel 10 2, t.readV 0xF, t.rp)) = some (true, false, 0, true) := by decide

/-- V-DRW-1 with the pixel of its last sprite bit lit before (R122 by hand): both axes reach the edge, columns wrap. -/
theorem test_drw_wraps_and_collides :
    after 0xD012 (withBytes 0x20C [0xFF, 0x81] (withFlip 31 3 (((fresh.writeV 0 60).writeV 1 30).setI 0x20C)))
      (fun t => (t.pixel 30 60, t.pixel 30 3, t.pixel 31 60, t.pixel 31 61, t.pixel 31 3, t.readV 0xF)) =
    some (true, true, true, false, false, 1) := by decide

/-! ### Timers and keys -/

/-- V-TMR-1. -/
theorem test_ld_vx_dt : after 0xF307 (fresh.setDt 0x2A) (fun t => (t.readV 3, t.dt)) = some (0x2A, 0x2A) := by
  decide

/-- V-TMR-2. -/
theorem test_ld_dt_vx : after 0xF315 (fresh.writeV 3 0x3C) (fun t => (t.dt, t.st)) = some (0x3C, 0) := by decide

/-- V-TMR-3. -/
theorem test_ld_st_vx : after 0xF318 (fresh.writeV 3 0x05) (fun t => (t.dt, t.st)) = some (0, 0x05) := by decide

/-- V-TMR-7, V-TMR-5. -/
theorem test_ld_vx_k_least : after 0xF30A (withKeys 0x1204 fresh) (fun t => (t.readV 3, t.pc)) =
    some (2, 0x0202) := by decide
theorem test_ld_vx_k_waits : stepStatus (fresh.placeWord 0xF30A) = .needsInput ∧
    (after 0xF30A fresh (fun t => (t.readV 3, t.pc)) = some (0, 0x0200)) := by decide

/-! ### Fetch, errors, host, reset -/

/-- V-ERR-1, V-ERR-11 to V-ERR-14. -/
theorem test_fetch_errors :
    errorOf (step fresh) = some (.unknownOpcode 0x0000) ∧
    errorOf (step (fresh.setPc 0x0FFF)) = some (.addressOutOfRange 0x1000) ∧
    errorOf (step (fresh.setPc 0x10FE)) = some (.addressOutOfRange 0x10FE) ∧
    errorOf (step (fresh.setPc 0xFFFF)) = some (.addressOutOfRange 0xFFFF) := by decide

/-- V-ERR-15, V-ERR-16. -/
theorem test_fetch_last_and_odd :
    (after 0x6A01 (fresh.setPc 0x0FFE) (fun t => (t.readV 0xA, t.pc)) = some (1, 0x1000)) ∧
    (after 0x6A01 (fresh.setPc 0x0201) (fun t => (t.readV 0xA, t.pc)) = some (1, 0x0203)) := by decide

/-- The status codes of R140 (D17). -/
theorem test_status_codes :
    (stepStatus fresh).code = 2 ∧ (stepStatus (fresh.setPc 0x10FE)).info = some 0x10FE ∧
    (stepStatus (fresh.placeWord 0x00EE)).code = 4 ∧ (stepStatus (fresh.placeWord 0x6A01)).code = 0 := by decide

/-- V-HOST-1, V-HOST-2. -/
theorem test_timer_tick :
    (fun t : State => (t.dt, t.st)) (HostEvent.timerTick.apply ((fresh.setDt 1).setSt 0)) = (0, 0) ∧
    (fun t : State => (t.dt, t.st)) (HostEvent.timerTick.apply ((fresh.setDt 0xFF).setSt 2)) = (0xFE, 1) := by decide

/-- V-HOST-6, V-HOST-7. -/
theorem test_key_update :
    (withKeys 0x0208 fresh).keyDown 3 = true ∧ (withKeys 0x0208 fresh).keyDown 9 = true ∧
    (withKeys 0x0208 fresh).keyDown 4 = false ∧ (withKeys 0 (withKeys 0x0208 fresh)).keyDown 3 = false := by decide

/-- V-HOST-4. -/
theorem test_redraw_ack : (HostEvent.redrawAck.apply (fresh.setRp true)).rp = false := by decide

/-- V-RST-1, the bytes of the ROM and the byte after them. -/
theorem test_load : (match State.load [0x60, 0x0A, 0x61, 0x05, 0x80, 0x14] with
    | .ok s => some (s.byteAt 0x200, s.byteAt 0x205, s.byteAt 0x206, s.pc)
    | .error _ => none) = some (0x60, 0x14, 0, 0x0200) := by decide

/-- V-RST-5, V-RST-6: the default font at two bases. -/
theorem test_font_at_zero :
    ([0x000, 0x001, 0x004, 0x04B, 0x04C, 0x04F, 0x050].map (Memory.initialWith 0x000 Config.defaultFont)) =
      [0xF0, 0x90, 0xF0, 0xF0, 0x80, 0x80, 0x00] := by decide
theorem test_font_at_050 :
    ([0x04F, 0x050, 0x054, 0x09B, 0x09F, 0x0A0, 0x1FF].map (Memory.initialWith 0x050 Config.defaultFont)) =
      [0x00, 0xF0, 0xF0, 0xF0, 0x80, 0x00, 0x00] := by decide

/-- The table's word, placed and run right after reset (S8's first word). -/
theorem test_table_word_runs_first :
    seen (fun t => (t.readV 0, t.pc)) (step (State.reset.withFetchWord 16 0x600A)) = some (0x0A, 0x0202) := by decide

/-! ### Witnesses: states and operands that meet the hypotheses of the obligations, clause by clause -/

/-- Memory of bytes at `a`, in the fresh machine. -/
def memOf (a : Nat) (bs : List Byte) : State := withBytes a bs fresh

theorem witness_EncodeOfDecode : decodeWord 0x8AF6 = some (.shr 0xA 0xF) ∧ encode (.shr 0xA 0xF) = 0x8AF6 := by decide

theorem witness_WordIsInstructionOfItsRow : (⟨0xF065, 0xF0FF⟩ : Row) ∈ opcodeRows ∧
    0xFA65#16 &&& 0xF0FF = 0xF065 ∧ (Instr.loadRegs 0xA).row = ⟨0xF065, 0xF0FF⟩ := by decide

/-- A word of each group that has illegal words; the second clause at the last address that can be fetched. -/
theorem witness_IllegalWordsRaiseUnknownOpcode :
    (decodeWord 0x01E0 = none ∧ decodeWord 0x5FFF = none ∧ decodeWord 0x8008 = none ∧ decodeWord 0x9001 = none ∧
      decodeWord 0xE000 = none ∧ decodeWord 0xF075 = none) ∧
    ((fresh.setPc 0xFFE).placeWord 0x5121).pc.toNat = 0xFFE ∧
    decodeWord (((fresh.setPc 0xFFE).placeWord 0x5121).wordAt 0xFFE) = none := by decide

theorem witness_StepRunsTheDecodedInstruction :
    ((fresh.setPc 0xFFE).placeWord 0x6A01).pc.toNat ≤ 0xFFE ∧
    decodeWord (((fresh.setPc 0xFFE).placeWord 0x6A01).byteAt 0xFFE ++
      ((fresh.setPc 0xFFE).placeWord 0x6A01).byteAt 0xFFF) = some (.ldKk 0xA 1) := by decide

theorem witness_FetchBeyondMemoryFaults :
    (fresh.setPc 0xFFF).pc.toNat = 0xFFF ∧ 0x1000 ≤ (fresh.setPc 0x1000).pc.toNat ∧
    0x1000 ≤ (fresh.setPc 0xFFFF).pc.toNat := by decide

theorem witness_PlacedWordRunsNext : fresh.pc.toNat ≤ 0xFFE ∧ (fresh.setPc 0xFFE).pc.toNat ≤ 0xFFE := by decide

/-- Each of the six ways to an error, just past the last value that completes. -/
theorem witness_ErrorsAreExactlyTheListedOnes :
    errorOf (exec .ret fresh) = some .stackUnderflow ∧
    errorOf (exec (.call 0) (withStack 16 0 fresh)) = some .stackOverflow ∧
    errorOf (exec (.drw 0 0 1) (fresh.setI 0x1000)) = some (.addressOutOfRange 0x1000) ∧
    errorOf (exec (.ldBVx 0) (fresh.setI 0x0FFE)) = some (.addressOutOfRange 0x1000) ∧
    errorOf (exec (.storeRegs 0xF) (fresh.setI 0x0FF1)) = some (.addressOutOfRange 0x1000) ∧
    errorOf (exec (.loadRegs 0) (fresh.setI 0xFFFF)) = some (.addressOutOfRange 0xFFFF) := by decide

theorem witness_StatusAndStateAfterAStep :
    stepStatus fresh = .error (.unknownOpcode 0) ∧ stepStatus (fresh.placeWord 0xF30A) = .needsInput ∧
    stepStatus (fresh.placeWord 0x6A01) = .ok := by decide

/-- Advancing, skipping and waiting; none of the three is a jump. -/
theorem witness_PcMovesByKindOfInstruction :
    seen (fun t => t.pc) (exec (.seKk 0 1) fresh) = some 0x0202 ∧
    seen (fun t => t.pc) (exec (.seKk 0 0) fresh) = some 0x0204 ∧
    seen (fun t => t.pc) (exec (.ldVxK 0) fresh) = some 0x0200 ∧
    (Instr.seKk 0 1).isJump = false ∧ (Instr.ldVxK 0).isJump = false := by decide

theorem witness_CallPushesTheReturnAddress :
    fresh.sp.val < 16 ∧ (withStack 15 0 fresh).sp.val < 16 ∧ (withStack 16 0 fresh).sp.val = 16 := by decide

theorem witness_ReturnPopsIntoPc :
    (withStack 1 0 fresh).sp.val = (0 : Fin 16).val + 1 ∧ (withStack 16 0 fresh).sp.val = (15 : Fin 16).val + 1 ∧
    fresh.sp.val = 0 := by decide

/-- The call that fills the last slot answers a next state. -/
theorem witness_ReturnComesBackAfterCall : ∃ t, exec (.call 0x300) (withStack 15 0 fresh) = .next t :=
  ⟨_, rfl⟩

theorem witness_CallChainFitsTheStack :
    fresh.sp.val + (List.replicate 16 (0x200 : Addr12)).length ≤ 16 ∧
    16 < fresh.sp.val + (List.replicate 17 (0x200 : Addr12)).length ∧
    (withStack 16 0 fresh).sp.val + ([] : List Addr12).length ≤ 16 := by decide

/-- S1's instance at 0x200, and at the last address it fits. -/
theorem witness_SkipsOnAConstant :
    ((memOf 0x200 [0x6A, 0x42, 0x3A, 0x42]).pc.toNat ≤ 0xFFC ∧
      (memOf 0x200 [0x6A, 0x42, 0x3A, 0x42]).wordAt 0x200 = 0x6#4 ++ 0xA#4 ++ 0x42#8 ∧
      (memOf 0x200 [0x6A, 0x42, 0x3A, 0x42]).wordAt 0x202 = 0x3#4 ++ 0xA#4 ++ 0x42#8) ∧
    ((memOf 0xFFC [0x60, 0x00, 0x30, 0x00]).setPc 0xFFC).pc.toNat = 0xFFC ∧
    ((memOf 0xFFC [0x60, 0x00, 0x30, 0x00]).setPc 0xFFC).wordAt 0xFFC = 0x6#4 ++ 0x0#4 ++ 0x00#8 ∧
    ((memOf 0xFFC [0x60, 0x00, 0x30, 0x00]).setPc 0xFFC).wordAt 0xFFE = 0x3#4 ++ 0x0#4 ++ 0x00#8 := by decide

theorem witness_SkipsOnTwoRegisters : (0x1 : Nibble) ≠ 0 ∧ (0xF : Nibble) ≠ 0 := by decide

theorem witness_SkipsOnAKey : ((fresh.writeV 3 0x1A).readV 3).toNat % 16 = (0xA : Nibble).toNat ∧
    (withKeys 0x0400 (fresh.writeV 3 0x1A)).keyDown 0xA = true ∧ fresh.keyDown 0xA = false := by decide

/-- The conditions of the flag clauses, each met and not met at its limit. -/
theorem witness_AddSetsCarry :
    ((fresh.writeV 1 0xFF).readV 1).toNat + ((fresh.writeV 1 0xFF).readV 2).toNat = 255 ∧
    (((fresh.writeV 1 0xFF).writeV 2 1).readV 1).toNat + (((fresh.writeV 1 0xFF).writeV 2 1).readV 2).toNat > 255 := by
  decide

theorem witness_SubtractionsSetNoBorrow :
    ((fresh.writeV 1 5).readV 1).toNat ≥ ((fresh.writeV 2 5).readV 2).toNat ∧
    ¬((fresh.writeV 1 4).readV 1).toNat ≥ ((fresh.writeV 2 5).readV 2).toNat := by decide

theorem witness_ShiftsSetTheBitShiftedOut :
    ((fresh.writeV 1 0x81).readV 1).toNat % 2 = 1 ∧ ((fresh.writeV 1 0x81).readV 1).toNat / 128 = 1 ∧
    ((fresh.writeV 1 0x7E).readV 1).toNat % 2 ≠ 1 ∧ ((fresh.writeV 1 0x7E).readV 1).toNat / 128 ≠ 1 := by decide

theorem witness_DecimalDigitsAreStored : (fresh.setI 0x0FFD).i.toNat + 2 ≤ 0xFFF := by decide

theorem witness_RegistersAreStoredFromIndex :
    (fresh.setI 0x0FF0).i.toNat + (0xF : Nibble).toNat ≤ 0xFFF ∧
    (fresh.setI 0x0FFF).i.toNat + (0x0 : Nibble).toNat ≤ 0xFFF := by decide

theorem witness_RegistersAreLoadedFromIndex :
    (fresh.setI 0x0FF0).i.toNat + (0xF : Nibble).toNat ≤ 0xFFF ∧
    (fresh.setI 0x0FFF).i.toNat + (0x0 : Nibble).toNat ≤ 0xFFF := by decide

/-- A store completes with x at its greatest and I at its last, and any state is such a `u` after VF is overwritten. -/
theorem witness_LoadBringsBackWhatWasStored :
    (∃ t, exec (.storeRegs 0xF) (fresh.setI 0x0FF0) = .next t) ∧
    ∀ t : State, (t.writeV 0xF 0x77).i = t.i ∧ Keeps t (t.writeV 0xF 0x77) .mem :=
  ⟨⟨_, rfl⟩, fun _ => ⟨rfl, fun _ => rfl⟩⟩

/-- The last two registers hold `JP 0x200` and are stored at 0xFFE and 0xFFF. -/
theorem witness_StoresAreSeenByTheNextFetch :
    (∃ t, exec (.storeRegs 0xF) (((fresh.writeV 0xE 0x12).writeV 0xF 0x00).setI 0x0FF0) = .next t) ∧
    (0xF : Nibble).toNat = (0xE : Nibble).toNat + 1 ∧ (0xF : Nibble).toNat ≤ (0xF : Nibble).toNat ∧
    decodeWord (((fresh.writeV 0xE 0x12).writeV 0xF 0x00).readV 0xE ++
      ((fresh.writeV 0xE 0x12).writeV 0xF 0x00).readV 0xF) = some (.jp 0x200) :=
  ⟨⟨_, rfl⟩, by decide, by decide, by decide⟩

/-- One sprite byte 0x80 at the last address, its pixel in the last row and column. -/
def oneDot : State := withBytes 0xFFF [0x80] (((fresh.writeV 0 63).writeV 1 31).setI 0x0FFF)

/-- No row at an index beyond memory, and one row at the last address. -/
theorem witness_DrawFlipsTheCoveredPixels :
    ((0 : Nibble).toNat = 0 ∨ (fresh.setI 0x1FFF).i.toNat + (0 : Nibble).toNat ≤ 0x1000) ∧
    ((1 : Nibble).toNat = 0 ∨ oneDot.i.toNat + (1 : Nibble).toNat ≤ 0x1000) := by decide

theorem witness_covered_and_unlit : SpriteCovers oneDot 0 1 1 31 63 ∧ oneDot.pixel 31 63 = false :=
  ⟨⟨0, 0, by decide, by decide, by decide, by decide, by decide⟩, by decide⟩

theorem witness_covered_and_lit :
    SpriteCovers (withFlip 31 63 oneDot) 0 1 1 31 63 ∧ (withFlip 31 63 oneDot).pixel 31 63 = true :=
  ⟨⟨0, 0, by decide, by decide, by decide, by decide, by decide⟩, by decide⟩

/-- With no row nothing is covered, so neither collision nor change has a pixel to show. -/
theorem witness_nothing_covered : ¬∃ r c, SpriteCovers oneDot 0 1 0 r c ∧ oneDot.pixel r c = true := by
  rintro ⟨r, c, ⟨row, col, h, -⟩, -⟩
  exact absurd h (Nat.not_lt_zero row)

/-- The state after the first draw meets all the hypotheses on the second's, and so does one whose timers moved. -/
theorem witness_SecondDrawRestoresTheFramebuffer :
    ∃ t, exec (.drw 0 1 1) oneDot = .next t ∧ Keeps t (t.setDt 1) .screen ∧ (t.setDt 1).i = oneDot.i ∧
      (t.setDt 1).readV 0 = oneDot.readV 0 ∧ (t.setDt 1).readV 1 = oneDot.readV 1 ∧
      ∀ k, k < (1 : Nibble).toNat → (t.setDt 1).byteAt (oneDot.i.toNat + k) = oneDot.byteAt (oneDot.i.toNat + k) :=
  ⟨_, rfl, fun _ _ => rfl, rfl, by decide, by decide, fun _ _ => rfl⟩

theorem witness_KeyWaitTakesTheLeastKey :
    (withKeys 0x8000 fresh).keyDown 0xF = true ∧
    (∀ j : Nibble, j.toNat < (0xF : Nibble).toNat → (withKeys 0x8000 fresh).keyDown j = false) ∧
    (withKeys 0xFFFF fresh).keyDown 0 = true := by decide

theorem witness_KeyWaitHoldsUntilAKeyIsDown :
    fetchDecode (fresh.placeWord 0xF30A) = .ok (.ldVxK 3) ∧
    (∀ k, (fresh.placeWord 0xF30A).keyDown k = false) ∧ (0x8000 : BitVec 16) ≠ 0 :=
  ⟨rfl, by decide, by decide⟩

theorem witness_LoaderMakesTheFreshMachine :
    3584 < (List.replicate 3585 (0 : Byte)).length ∧ (List.replicate 3584 (0 : Byte)).length ≤ 3584 ∧
    ([] : List Byte).length ≤ 3584 := by simp only [List.length_replicate, List.length_nil]; decide

theorem witness_ResetMemoryHoldsTheFont : fontBaseWellFormed 0 = true ∧ fontBaseWellFormed 432 = true := by decide

/-- A state that holds a program, with the invariant, whose step completes. -/
theorem witness_StepKeepsTheInvariant :
    (fresh.placeWord 0x2300).Inv ∧ ∃ t, step (fresh.placeWord 0x2300) = .next t :=
  ⟨⟨by decide, by decide, by decide⟩, ⟨_, rfl⟩⟩

theorem witness_ReachableStatesMeetTheInvariant : Reachable State.reset :=
  .fresh [] _ rfl

/-- A state after a step of the core and a host event is reached too. -/
theorem witness_reachable_by_moves :
    ∃ s t : State, Reachable s ∧ step s = .next t ∧ Reachable (HostEvent.timerTick.apply t) := by
  have h : Reachable (memOf 0x200 [0x60, 0x0A]) := .fresh [0x60, 0x0A] _ rfl
  exact ⟨_, _, h, rfl, .move _ _ (.move _ _ h (.core rfl)) (.host .timerTick rfl)⟩

theorem witness_CanonicalMemoriesAreDeterminedByTheirBytes :
    (memOf 0x200 [1, 0, 2]).mem.wf ∧ (memOf 0x200 [1, 0, 2]).mem = [(0x200, 1), (0x202, 2)] := by decide

theorem witness_InstructionsWriteOnlyTheirRow :
    (∃ t, exec (.storeRegs 0xF) (fresh.setI 0x0FF0) = .next t) ∧ (Instr.storeRegs 0xF).storedBytes = 16 ∧
    (∃ t, exec (.rnd 3 0x0F) fresh = .next t) ∧ (Instr.rnd 3 0x0F).writesReg 4 = false ∧ (fresh.setRp true).rp = true :=
  ⟨⟨_, rfl⟩, rfl, ⟨_, rfl⟩, by decide, rfl⟩

theorem witness_SoundTimerAndRedrawFlagAreNeverRead :
    AgreeButSoundAndRedraw fresh ((fresh.setSt 9).setRp true) ∧ fresh ≠ (fresh.setSt 9).setRp true :=
  ⟨rfl, by decide⟩

/-- One live entry alike, fifteen dead ones different. -/
theorem witness_DeadStackEntriesAreNeverRead :
    AgreeButDeadStack (withStack 1 0x202 fresh)
      { withStack 1 0x202 fresh with stack := (Vector.replicate 16 0x999).set 0 0x202 } :=
  ⟨rfl, by decide⟩

/-- The idle loop at 0x200 and at the last address that can be fetched. -/
theorem witness_IdleLoopIsAFixedPoint :
    (fresh.placeWord 0x1200).Idle ∧ ((fresh.setPc 0xFFE).placeWord 0x1FFE).Idle :=
  ⟨⟨by decide, by decide⟩, ⟨by decide, by decide⟩⟩

end Sys2Proof.Tests
end

section
/-! The fields of R46 as numbers, and how their bit ranges meet (R7). -/

namespace Sys2Proof

theorem toNat_lowField (op : Word) (len : Nat) : (op.extractLsb' 0 len).toNat = op.toNat % 2 ^ len := by
  rw [toNat_field, pow_zero, Nat.div_one]

theorem fields_group_toNat (op : Word) : (fields op).group.toNat = op.toNat / 4096 := by
  have hfield : (fields op).group.toNat = op.toNat / 4096 % 16 := toNat_field op 12 4
  have hop := op.isLt
  omega

theorem fields_x_toNat (op : Word) : (fields op).x.toNat = op.toNat / 256 % 16 := toNat_field op 8 4

theorem fields_y_toNat (op : Word) : (fields op).y.toNat = op.toNat / 16 % 16 := toNat_field op 4 4

theorem fields_n_toNat (op : Word) : (fields op).n.toNat = op.toNat % 16 := toNat_lowField op 4

theorem fields_kk_toNat (op : Word) : (fields op).kk.toNat = op.toNat % 256 := toNat_lowField op 8

theorem fields_nnn_toNat (op : Word) : (fields op).nnn.toNat = op.toNat % 4096 := toNat_lowField op 12

theorem fields_kk_eq_append (op : Word) : (fields op).kk = (fields op).y ++ (fields op).n := by
  have hyn : op.extractLsb' 4 4 ++ op.extractLsb' 0 4 = op.extractLsb' 0 8 :=
    BitVec.extractLsb'_append_extractLsb'_eq_extractLsb' rfl
  exact hyn.symm

theorem fields_nnn_eq_append (op : Word) :
    (fields op).nnn = (fields op).x ++ (fields op).y ++ (fields op).n := by
  have hxy : (fields op).x ++ (fields op).y = op.extractLsb' 4 8 :=
    BitVec.extractLsb'_append_extractLsb'_eq_extractLsb' rfl
  have hxyn : op.extractLsb' 4 8 ++ op.extractLsb' 0 4 = op.extractLsb' 0 12 :=
    BitVec.extractLsb'_append_extractLsb'_eq_extractLsb' rfl
  rw [hxy]
  exact hxyn.symm

/-- Settles O2: each range of bits is a quotient and remainder of the word, and adjacent ranges are one longer range. -/
theorem fieldsOfTheWord : Obligations.FieldsOfTheWord := fun op =>
  ⟨rfl, fields_group_toNat op, fields_x_toNat op, fields_y_toNat op, fields_n_toNat op, fields_kk_toNat op,
    fields_nnn_toNat op, fields_kk_eq_append op, fields_nnn_eq_append op⟩

end Sys2Proof
end

section
/-! Frames: what the write of pc, and a move of the stack, leave unchanged. -/

namespace Sys2Proof.Machine

theorem keeps_refl (s : State) (p : Part) : Keeps s s p := by
  cases p with
  | stack => exact ⟨rfl, fun _ => rfl⟩
  | screen => exact fun _ _ => rfl
  | mem | regs | keys => exact fun _ => rfl
  | index | redraw | delay | sound | draws => rfl

/-- pc is no part of a frame, so a frame outlasts the write of pc that ends an instruction (R62). -/
theorem keeps_setPc_iff (s t : State) (w : Word) (p : Part) : Keeps s (t.setPc w) p ↔ Keeps s t p := by
  cases p <;> rfl

theorem keepsAllBut_setPc {touched : List Part} {s t : State} (h : KeepsAllBut touched s t) (w : Word) :
    KeepsAllBut touched s (t.setPc w) :=
  fun p hp => (keeps_setPc_iff s t w p).2 (h p hp)

theorem keepsAllBut_refl (touched : List Part) (s : State) : KeepsAllBut touched s s :=
  fun p _ => keeps_refl s p

theorem keepsAllBut_stack (s : State) (sp : Fin 17) (stack : Vector Word 16) :
    KeepsAllBut [.stack] s { s with sp := sp, stack := stack } := by
  intro p hp
  have hkeeps := keeps_refl s p
  cases p with
  | stack => exact absurd (List.mem_singleton_self _) hp
  | _ => exact hkeeps

end Sys2Proof.Machine
end

section
/-! Jump, call and return (R63 to R65): their words, and what they answer by what the stack answers. -/

namespace Sys2Proof

theorem decodeWord_jp (nnn : Addr12) : decodeWord (gnnn 0x1#4 nnn) = some (.jp nnn) := by
  obtain ⟨hgroup, hnnn⟩ := fields_gnnn 0x1#4 nnn
  simp only [decodeWord, decodeFields, hgroup, hnnn]

theorem decodeWord_call (nnn : Addr12) : decodeWord (gnnn 0x2#4 nnn) = some (.call nnn) := by
  obtain ⟨hgroup, hnnn⟩ := fields_gnnn 0x2#4 nnn
  simp only [decodeWord, decodeFields, hgroup, hnnn]

namespace Machine

@[simp] theorem absolute_toNat (nnn : Addr12) : (absolute nnn).toNat = nnn.toNat :=
  BitVec.toNat_setWidth_of_le (by decide)

theorem exec_jp (nnn : Addr12) (s : State) : exec (.jp nnn) s = .next (s.setPc (absolute nnn)) := rfl

theorem exec_call_of_push_some {s t : State} (nnn : Addr12) (h : s.push (s.pc + 2) = some t) :
    exec (.call nnn) s = .next (t.setPc (absolute nnn)) := by
  simp only [exec, execCall, h, finish_eq, State.withNext_jump]

theorem exec_call_of_push_none {s : State} (nnn : Addr12) (h : s.push (s.pc + 2) = none) :
    exec (.call nnn) s = .fault .stackOverflow := by
  simp only [exec, execCall, h, raise_eq]

theorem exec_ret_of_pop_some {s t : State} {a : Word} (h : s.pop = some (a, t)) :
    exec .ret s = .next (t.setPc a) := by
  simp only [exec, execRet, h, finish_eq, State.withNext_jump]

theorem exec_ret_of_pop_none {s : State} (h : s.pop = none) : exec .ret s = .fault .stackUnderflow := by
  simp only [exec, execRet, h, raise_eq]

end Machine

open Machine

/-- Settles O14: a jump is one write of pc, and no frame speaks of pc. -/
theorem jumpGoesToItsAddress : Obligations.JumpGoesToItsAddress := fun nnn =>
  ⟨decodeWord_jp nnn, fun s =>
    ⟨_, exec_jp nnn s, absolute_toNat nnn, keepsAllBut_setPc (keepsAllBut_refl [] s) _⟩⟩

/-- Settles O16, by what the push can do: it finds the stack full or has a slot. -/
theorem callPushesTheReturnAddress : Obligations.CallPushesTheReturnAddress := by
  refine fun nnn => ⟨decodeWord_call nnn, fun s => ?_⟩
  obtain ⟨hfull, hpush⟩ | ⟨hroom, t, hpush, hsp, hstack, ht⟩ := s.push_cases (s.pc + 2)
  · exact ⟨fun h => by omega, fun _ => exec_call_of_push_none nnn hpush⟩
  · have hframe : KeepsAllBut [.stack] s t := by
      rw [ht]
      exact keepsAllBut_stack s t.sp t.stack
    exact ⟨fun _ => ⟨_, exec_call_of_push_some nnn hpush, absolute_toNat nnn, hsp, hstack,
      keepsAllBut_setPc hframe _⟩, fun h => by omega⟩

/-- Settles O17, by what the pop can do: it finds the stack empty, or its entry is the one SP names. -/
theorem returnPopsIntoPc : Obligations.ReturnPopsIntoPc := by
  refine ⟨by decide, fun s => ?_⟩
  obtain ⟨hempty, hpop⟩ | ⟨top, htop, t, hpop, hsp, ht⟩ := s.pop_cases
  · exact ⟨fun k h => by omega, fun _ => exec_ret_of_pop_none hpop⟩
  · refine ⟨fun k hk => ?_, fun h => by omega⟩
    obtain rfl : k = top := by omega
    have hstack : ∀ j, t.stackAt j = s.stackAt j := fun j => congrArg (·.stackAt j) ht
    have hframe : KeepsAllBut [.stack] s t := by
      rw [ht]
      exact keepsAllBut_stack s t.sp s.stack
    exact ⟨_, exec_ret_of_pop_some hpop, rfl, hsp, hstack, keepsAllBut_setPc hframe _⟩

end Sys2Proof
end

section
/-! Skips on a constant (R81, R82): their words, what they answer, and the load before one (R81's property). -/

namespace Sys2Proof

theorem decodeWord_seKk (x : Nibble) (kk : Byte) : decodeWord (gxkk 0x3#4 x kk) = some (.seKk x kk) := by
  obtain ⟨hgroup, hx, hkk⟩ := fields_gxkk 0x3#4 x kk
  simp only [decodeWord, decodeFields, hgroup, hx, hkk]

theorem decodeWord_sneKk (x : Nibble) (kk : Byte) : decodeWord (gxkk 0x4#4 x kk) = some (.sneKk x kk) := by
  obtain ⟨hgroup, hx, hkk⟩ := fields_gxkk 0x4#4 x kk
  simp only [decodeWord, decodeFields, hgroup, hx, hkk]

theorem decodeWord_ldKk (x : Nibble) (kk : Byte) : decodeWord (gxkk 0x6#4 x kk) = some (.ldKk x kk) := by
  obtain ⟨hgroup, hx, hkk⟩ := fields_gxkk 0x6#4 x kk
  simp only [decodeWord, decodeFields, hgroup, hx, hkk]

namespace Machine

theorem exec_seKk (x : Nibble) (kk : Byte) (s : State) :
    exec (.seKk x kk) s = .next (s.setPc (if s.readV x = kk then s.pc + 4 else s.pc + 2)) := by
  simp only [exec, execSeKk, skipIf_eq, beq_iff_eq]

theorem exec_sneKk (x : Nibble) (kk : Byte) (s : State) :
    exec (.sneKk x kk) s = .next (s.setPc (if s.readV x = kk then s.pc + 2 else s.pc + 4)) := by
  simp only [exec, execSneKk, skipIf_eq, bne_iff_ne, ne_eq, ite_not]

theorem exec_ldKk (x : Nibble) (kk : Byte) (s : State) :
    exec (.ldKk x kk) s = .next ((s.writeV x kk).setPc (s.pc + 2)) := rfl

/-- A step is the instruction of the word at pc, run there (R62). -/
theorem step_eq_exec {s : State} {i : Instr} (hpc : s.pc.toNat ≤ 0xFFE)
    (hword : decodeWord (s.wordAt s.pc.toNat) = some i) : step s = exec i s := by
  simp only [step, (fetchDecode_ok_iff s i).2 ⟨hpc, hword⟩]

theorem step_ldKk {x : Nibble} {kk : Byte} {s : State} (hpc : s.pc.toNat ≤ 0xFFE)
    (hword : s.wordAt s.pc.toNat = gxkk 0x6#4 x kk) :
    step s = .next ((s.writeV x kk).setPc (s.pc + 2)) := by
  rw [step_eq_exec hpc (by rw [hword, decodeWord_ldKk]), exec_ldKk]

theorem step_seKk_of_eq {x : Nibble} {kk : Byte} {s : State} (hpc : s.pc.toNat ≤ 0xFFE)
    (hword : s.wordAt s.pc.toNat = gxkk 0x3#4 x kk) (hx : s.readV x = kk) :
    step s = .next (s.setPc (s.pc + 4)) := by
  rw [step_eq_exec hpc (by rw [hword, decodeWord_seKk]), exec_seKk, if_pos hx]

/-- R81's property: the load of `6xkk` leaves memory alone and makes the condition of the `3xkk` after it true. -/
theorem step_ldKk_then_seKk {x : Nibble} {kk : Byte} {s : State} (hpc : s.pc.toNat ≤ 0xFFC)
    (hload : s.wordAt s.pc.toNat = gxkk 0x6#4 x kk) (hskip : s.wordAt (s.pc.toNat + 2) = gxkk 0x3#4 x kk) :
    ∃ t u, step s = .next t ∧ step t = .next u ∧ u.readV x = kk ∧ u.pc = s.pc + 6 := by
  have hpc₂ : (s.pc + 2).toNat = s.pc.toNat + 2 :=
    BitVec.toNat_add_of_lt (show s.pc.toNat + 2 < 2 ^ 16 by omega)
  have hx : (s.writeV x kk).readV x = kk := (s.readV_writeV x x kk).trans (if_pos rfl)
  refine ⟨_, _, step_ldKk (by omega) hload, step_seKk_of_eq ?_ ?_ hx, hx, BitVec.add_assoc s.pc 2 4⟩
  · rw [State.setPc_pc]
    omega
  · rw [State.setPc_pc, hpc₂]
    exact hskip

end Machine

open Machine

/-- Settles O20: a skip is one write of pc, and a load of the constant makes the skip on equality taken. -/
theorem skipsOnAConstant : Obligations.SkipsOnAConstant := fun x kk =>
  ⟨decodeWord_seKk x kk, decodeWord_sneKk x kk, fun s =>
    ⟨⟨_, exec_seKk x kk s, rfl, keepsAllBut_setPc (keepsAllBut_refl [] s) _⟩,
      ⟨_, exec_sneKk x kk s, rfl, keepsAllBut_setPc (keepsAllBut_refl [] s) _⟩,
      step_ldKk_then_seKk⟩⟩

end Sys2Proof
end

section
/-! What an instruction of the arithmetic and logic group leaves (R90): one register written, with or without the flag
after it (R13), every other part kept, and pc advanced. -/

namespace Sys2Proof.Machine

theorem keepsAllBut_regs (s : State) (v : Vector Byte 16) : KeepsAllBut [.regs] s { s with v := v } := by
  intro p hp
  have hkeeps := keeps_refl s p
  cases p with
  | regs => exact absurd (List.mem_singleton_self _) hp
  | _ => exact hkeeps

theorem writesReg_writeV (s : State) (x : Nibble) (b : Byte) : WritesReg s (s.writeV x b) x b.toNat := by
  intro q
  rw [State.readV_writeV, apply_ite BitVec.toNat]

theorem writesRegFlag_writeResultFlag (s : State) (x : Nibble) (b : Byte) {f : Bool} {P : Prop} (hf : f = true ↔ P) :
    WritesRegFlag s (s.writeResultFlag x b f) x b.toNat P := by
  have hflag : (s.writeResultFlag x b f).readV flagReg = flagByte f :=
    (s.readV_writeResultFlag x flagReg b f).trans (if_pos rfl)
  refine ⟨fun hP => ?_, fun hP => ?_, fun q hq => ?_⟩
  · rw [hflag, hf.2 hP]
    rfl
  · rw [hflag, Bool.eq_false_iff.2 (mt hf.1 hP)]
    rfl
  · rw [State.readV_writeResultFlag, if_neg hq, apply_ite BitVec.toNat]

/-- No clause of the postcondition but the second reads pc, so the writes' own lemmas outlast the write of pc. -/
theorem completes_of_writeV {i : Instr} {s : State} {x : Nibble} {b : Byte} {r : Nat}
    (hexec : exec i s = .next ((s.writeV x b).setPc (s.pc + 2))) (hr : b.toNat = r) :
    Completes i s fun t => WritesReg s t x r ∧ t.pc = s.pc + 2 ∧ KeepsAllBut [.regs] s t := by
  subst hr
  exact ⟨_, hexec, writesReg_writeV s x b, rfl, keepsAllBut_setPc (keepsAllBut_regs s _) _⟩

theorem completes_of_writeResultFlag {i : Instr} {s : State} {x : Nibble} {b : Byte} {f : Bool} {r : Nat} {P : Prop}
    (hexec : exec i s = .next ((s.writeResultFlag x b f).setPc (s.pc + 2))) (hr : b.toNat = r) (hf : f = true ↔ P) :
    Completes i s fun t => WritesRegFlag s t x r P ∧ t.pc = s.pc + 2 ∧ KeepsAllBut [.regs] s t := by
  subst hr
  exact ⟨_, hexec, writesRegFlag_writeResultFlag s x b hf, rfl, keepsAllBut_setPc (keepsAllBut_regs s _) _⟩

end Sys2Proof.Machine
end

section
/-! Constants, the sum with carry and the shifts (R91, R92, R97, R99, R101): their words, what they answer, and the
bytes and flags they compute as numbers. -/

namespace Sys2Proof

theorem decodeWord_addKk (x : Nibble) (kk : Byte) : decodeWord (gxkk 0x7#4 x kk) = some (.addKk x kk) := by
  obtain ⟨hgroup, hx, hkk⟩ := fields_gxkk 0x7#4 x kk
  simp only [decodeWord, decodeFields, hgroup, hx, hkk]

/-- A word of group 8 is decoded from its last three nibbles (R48, D7). -/
theorem decodeWord_group8 (x y n : Nibble) :
    decodeWord (gxyn 0x8#4 x y n) =
      decodeGroup8 { fields (gxyn 0x8#4 x y n) with x := x, y := y, n := n } := by
  obtain ⟨hgroup, hx, hy, hn⟩ := fields_gxyn 0x8#4 x y n
  simp only [decodeWord, decodeFields, decodeGroup8, hgroup, hx, hy, hn]

theorem decodeWord_addVy (x y : Nibble) : decodeWord (gxyn 0x8#4 x y 0x4#4) = some (.addVy x y) :=
  decodeWord_group8 x y 0x4#4

theorem decodeWord_shr (x y : Nibble) : decodeWord (gxyn 0x8#4 x y 0x6#4) = some (.shr x y) :=
  decodeWord_group8 x y 0x6#4

theorem decodeWord_shl (x y : Nibble) : decodeWord (gxyn 0x8#4 x y 0xE#4) = some (.shl x y) :=
  decodeWord_group8 x y 0xE#4

namespace Machine

theorem exec_addKk (x : Nibble) (kk : Byte) (s : State) :
    exec (.addKk x kk) s = .next ((s.writeV x (s.readV x + kk)).setPc (s.pc + 2)) := rfl

theorem exec_addVy (x y : Nibble) (s : State) :
    exec (.addVy x y) s = .next ((s.writeResultFlag x (s.readV x + s.readV y)
      (carryOut (s.readV x) (s.readV y))).setPc (s.pc + 2)) := rfl

theorem exec_shr (x y : Nibble) (s : State) :
    exec (.shr x y) s = .next ((s.writeResultFlag x (s.readV x >>> 1)
      (shiftedOutRight (s.readV x))).setPc (s.pc + 2)) := rfl

theorem exec_shl (x y : Nibble) (s : State) :
    exec (.shl x y) s = .next ((s.writeResultFlag x (s.readV x <<< 1)
      (shiftedOutLeft (s.readV x))).setPc (s.pc + 2)) := rfl

theorem toNat_shiftRight_one (b : Byte) : (b >>> 1).toNat = b.toNat / 2 := by
  rw [BitVec.toNat_ushiftRight, Nat.shiftRight_one]

theorem toNat_shiftLeft_one (b : Byte) : (b <<< 1).toNat = 2 * b.toNat % 256 := by
  rw [BitVec.toNat_shiftLeft, Nat.shiftLeft_eq, Nat.mul_comm]

theorem carryOut_iff (a b : Byte) : carryOut a b = true ↔ a.toNat + b.toNat > 255 := decide_eq_true_iff

theorem shiftedOutRight_iff (b : Byte) : shiftedOutRight b = true ↔ b.toNat % 2 = 1 := by
  rw [shiftedOutRight, BitVec.getLsbD, Nat.testBit_zero, decide_eq_true_iff]

/-- A byte is below 256, so its bit 7 is the whole quotient by 128. -/
theorem shiftedOutLeft_iff (b : Byte) : shiftedOutLeft b = true ↔ b.toNat / 128 = 1 := by
  have hb := b.isLt
  rw [shiftedOutLeft, BitVec.getLsbD, Nat.testBit_eq_decide_div_mod_eq, decide_eq_true_iff]
  omega

end Machine

open Machine

/-- Settles O25: the sum and its carry are the byte and the flag written, in that order. -/
theorem addSetsCarry : Obligations.AddSetsCarry := fun x y =>
  ⟨decodeWord_addVy x y, fun s =>
    completes_of_writeResultFlag (exec_addVy x y s) (BitVec.toNat_add _ _) (carryOut_iff _ _)⟩

/-- Settles O27: each shift writes the half or the double of the byte, then the bit that left it. -/
theorem shiftsSetTheBitShiftedOut : Obligations.ShiftsSetTheBitShiftedOut := fun x y =>
  ⟨decodeWord_shr x y, decodeWord_shl x y, fun s =>
    ⟨completes_of_writeResultFlag (exec_shr x y s) (toNat_shiftRight_one _) (shiftedOutRight_iff _),
      completes_of_writeResultFlag (exec_shl x y s) (toNat_shiftLeft_one _) (shiftedOutLeft_iff _)⟩⟩

/-- Settles O23: each is one register write, of the constant or of the wrapped sum. -/
theorem constantLoadAndAdd : Obligations.ConstantLoadAndAdd := fun x kk =>
  ⟨decodeWord_ldKk x kk, decodeWord_addKk x kk, fun s =>
    ⟨completes_of_writeV (exec_ldKk x kk s) rfl,
      completes_of_writeV (exec_addKk x kk s) (BitVec.toNat_add _ _)⟩⟩

end Sys2Proof
end

section
/-! The load of I (R110): its word, what it answers, and the frame of a write of I. -/

namespace Sys2Proof

theorem decodeWord_ldI (nnn : Addr12) : decodeWord (gnnn 0xA#4 nnn) = some (.ldI nnn) := by
  obtain ⟨hgroup, hnnn⟩ := fields_gnnn 0xA#4 nnn
  simp only [decodeWord, decodeFields, hgroup, hnnn]

namespace Machine

theorem keepsAllBut_setI (s : State) (w : Word) : KeepsAllBut [.index] s (s.setI w) := by
  intro p hp
  have hkeeps := keeps_refl s p
  cases p with
  | index => exact absurd (List.mem_singleton_self _) hp
  | _ => exact hkeeps

theorem exec_ldI (nnn : Addr12) (s : State) :
    exec (.ldI nnn) s = .next ((s.setI (absolute nnn)).setPc (s.pc + 2)) := rfl

end Machine

open Machine

/-- Settles O29: the load is one write of I, of the constant zero-extended to a word, and the advance of pc. -/
theorem loadIndexImmediate : Obligations.LoadIndexImmediate := fun nnn =>
  ⟨decodeWord_ldI nnn, fun s =>
    ⟨_, exec_ldI nnn s, absolute_toNat nnn, rfl, keepsAllBut_setPc (keepsAllBut_setI s _) _⟩⟩

end Sys2Proof
end

section
/-! The clear (R120): its word, what it answers, and the frame of a write of the framebuffer and RP. -/

namespace Sys2Proof

theorem decodeWord_cls : decodeWord 0x00E0 = some .cls := rfl

namespace Machine

theorem keepsAllBut_setFb_setRp (s : State) (fb : Screen) (b : Bool) :
    KeepsAllBut [.screen, .redraw] s ((s.setFb fb).setRp b) := by
  intro p hp
  have hkeeps := keeps_refl s p
  cases p with
  | screen | redraw => exact absurd (by decide) hp
  | _ => exact hkeeps

theorem exec_cls (s : State) :
    exec .cls s = .next (((s.setFb Screen.blank).setRp true).setPc (s.pc + 2)) := rfl

end Machine

open Machine

/-- Settles O37: the clear is one write of the blank framebuffer, one of RP whatever it was, and the advance of pc. -/
theorem clearScreenMarksRedraw : Obligations.ClearScreenMarksRedraw :=
  ⟨decodeWord_cls, fun s =>
    ⟨_, exec_cls s, Screen.pixel_blank, rfl, rfl, keepsAllBut_setPc (keepsAllBut_setFb_setRp s _ _) _⟩⟩

end Sys2Proof
end

section
/-! Decoder and encoder (R45 to R51): the decoder sees a word through its fields, so it reads back what the encoder
writes, drops no bit, and decides by the bits that a row of R49 fixes. -/

namespace Sys2Proof

/-! ### Decoding from known fields -/

theorem decodeWord_of_nnn {op : Word} {g : Nibble} {nnn : Addr12} (hgroup : (fields op).group = g)
    (hnnn : (fields op).nnn = nnn) : decodeWord op = decodeFields { fields op with group := g, nnn := nnn } := by
  subst hgroup hnnn
  rfl

theorem decodeWord_of_x_kk {op : Word} {g x : Nibble} {kk : Byte} (hgroup : (fields op).group = g)
    (hx : (fields op).x = x) (hkk : (fields op).kk = kk) :
    decodeWord op = decodeFields { fields op with group := g, x := x, kk := kk } := by
  subst hgroup hx hkk
  rfl

theorem decodeWord_of_x_y_n {op : Word} {g x y n : Nibble} (hgroup : (fields op).group = g)
    (hx : (fields op).x = x) (hy : (fields op).y = y) (hn : (fields op).n = n) :
    decodeWord op = decodeFields { fields op with group := g, x := x, y := y, n := n } := by
  subst hgroup hx hy hn
  rfl

theorem decodeWord_gnnn (g : Nibble) (nnn : Addr12) :
    decodeWord (gnnn g nnn) = decodeFields { fields (gnnn g nnn) with group := g, nnn := nnn } :=
  decodeWord_of_nnn (fields_gnnn g nnn).1 (fields_gnnn g nnn).2

theorem decodeWord_gxkk (g x : Nibble) (kk : Byte) :
    decodeWord (gxkk g x kk) = decodeFields { fields (gxkk g x kk) with group := g, x := x, kk := kk } := by
  obtain ⟨hgroup, hx, hkk⟩ := fields_gxkk g x kk
  exact decodeWord_of_x_kk hgroup hx hkk

theorem decodeWord_gxyn (g x y n : Nibble) :
    decodeWord (gxyn g x y n) = decodeFields { fields (gxyn g x y n) with group := g, x := x, y := y, n := n } := by
  obtain ⟨hgroup, hx, hy, hn⟩ := fields_gxyn g x y n
  exact decodeWord_of_x_y_n hgroup hx hy hn

/-! ### Decoding what was encoded -/

theorem decodeWord_encode (i : Instr) : decodeWord (encode i) = some i := by
  cases i with
  | cls | ret => rfl
  | jp nnn | call nnn | ldI nnn | jpV0 nnn => exact decodeWord_gnnn _ nnn
  | seKk x kk | sneKk x kk | ldKk x kk | addKk x kk | rnd x kk => exact decodeWord_gxkk _ x kk
  | seVy x y | sneVy x y => exact decodeWord_gxyn _ x y 0
  | ldVy x y | orVy x y | andVy x y | xorVy x y | addVy x y | subVy x y | shr x y | subnVy x y | shl x y =>
    exact decodeWord_gxyn _ x y _
  | drw x y n => exact decodeWord_gxyn _ x y n
  | skp x | sknp x => exact decodeWord_gxkk _ x _
  | ldVxDt x | ldVxK x | ldDtVx x | ldStVx x | addIVx x | ldFVx x | ldBVx x | storeRegs x | loadRegs x =>
    exact decodeWord_gxkk _ x _

theorem decodeBytes_encodeBytes_append (i : Instr) (rest : List Byte) :
    decodeBytes (encodeBytes i ++ rest) = .ok (i, rest) := by
  have hword : decodeWord (wordOfBytes (hiByte (encode i)) (loByte (encode i))) = some i := by
    rw [wordOfBytes_hiByte_loByte, decodeWord_encode]
  simp only [encodeBytes, List.cons_append, List.nil_append, decodeBytes, hword]

/-- Settles O3: in each view the fields of the encoded word are the operands, and its two bytes put together are it. -/
theorem decodeOfEncode : Obligations.DecodeOfEncode := fun i =>
  ⟨decodeWord_encode i, decodeBytes_encodeBytes_append i⟩

/-! ### Encoding what was decoded -/

theorem gnnn_of_fields {op : Word} {g : Nibble} (hgroup : (fields op).group = g) : gnnn g (fields op).nnn = op := by
  rw [← hgroup]
  exact (eq_gnnn op).symm

theorem gxkk_of_fields {op : Word} {g : Nibble} (hgroup : (fields op).group = g) :
    gxkk g (fields op).x (fields op).kk = op := by
  rw [← hgroup]
  exact (eq_gxkk op).symm

theorem gxkk_of_fields_kk {op : Word} {g : Nibble} {kk : Byte} (hgroup : (fields op).group = g)
    (hkk : (fields op).kk = kk) : gxkk g (fields op).x kk = op := by
  rw [← hkk]
  exact gxkk_of_fields hgroup

theorem gxyn_of_fields {op : Word} {g : Nibble} (hgroup : (fields op).group = g) :
    gxyn g (fields op).x (fields op).y (fields op).n = op := by
  rw [← hgroup]
  exact (eq_gxyn op).symm

theorem gxyn_of_fields_n {op : Word} {g n : Nibble} (hgroup : (fields op).group = g) (hn : (fields op).n = n) :
    gxyn g (fields op).x (fields op).y n = op := by
  rw [← hn]
  exact gxyn_of_fields hgroup

theorem encode_of_decodeGroup0 {op : Word} {i : Instr} (h : decodeGroup0 (fields op) = some i) : encode i = op := by
  unfold decodeGroup0 at h
  split at h
  case h_1 hop | h_2 hop => cases h; exact hop.symm
  case h_3 => cases h

theorem encode_of_decodeGroup8 {op : Word} {i : Instr} (hgroup : (fields op).group = 0x8#4)
    (h : decodeGroup8 (fields op) = some i) : encode i = op := by
  unfold decodeGroup8 at h
  split at h
  case h_10 => cases h
  all_goals
    cases h
    exact gxyn_of_fields_n hgroup ‹_›

theorem encode_of_decodeGroupE {op : Word} {i : Instr} (hgroup : (fields op).group = 0xE#4)
    (h : decodeGroupE (fields op) = some i) : encode i = op := by
  unfold decodeGroupE at h
  split at h
  case h_3 => cases h
  all_goals
    cases h
    exact gxkk_of_fields_kk hgroup ‹_›

theorem encode_of_decodeGroupF {op : Word} {i : Instr} (hgroup : (fields op).group = 0xF#4)
    (h : decodeGroupF (fields op) = some i) : encode i = op := by
  unfold decodeGroupF at h
  split at h
  case h_10 => cases h
  all_goals
    cases h
    exact gxkk_of_fields_kk hgroup ‹_›

/-- Settles O4, along the decoder's branches: each keeps every field that its group and selector do not fix. -/
theorem encodeOfDecode : Obligations.EncodeOfDecode := by
  intro op i h
  unfold decodeWord decodeFields at h
  split at h
  case h_1 => exact encode_of_decodeGroup0 h
  case h_9 hgroup => exact encode_of_decodeGroup8 hgroup h
  case h_15 hgroup => exact encode_of_decodeGroupE hgroup h
  case h_16 hgroup => exact encode_of_decodeGroupF hgroup h
  case h_2 hgroup | h_3 hgroup | h_11 hgroup | h_12 hgroup => cases h; exact gnnn_of_fields hgroup
  case h_4 hgroup | h_5 hgroup | h_7 hgroup | h_8 hgroup | h_13 hgroup => cases h; exact gxkk_of_fields hgroup
  case h_6 hgroup | h_10 hgroup =>
    split at h
    case isTrue hn => cases h; exact gxyn_of_fields_n hgroup hn
    case isFalse => cases h
  case h_14 hgroup => cases h; exact gxyn_of_fields hgroup
  case h_17 => cases h

/-! ### Rows of the table -/

/-- The encoder's word of any instruction fits the instruction's own row, and that row is listed. -/
theorem rowFits : ∀ i : Instr, Laws.RowFits.Statement i
  | .cls => Laws.RowFits.cls
  | .ret => Laws.RowFits.ret
  | .jp nnn => Laws.RowFits.jp nnn
  | .call nnn => Laws.RowFits.call nnn
  | .seKk x kk => Laws.RowFits.seKk x kk
  | .sneKk x kk => Laws.RowFits.sneKk x kk
  | .seVy x y => Laws.RowFits.seVy x y
  | .ldKk x kk => Laws.RowFits.ldKk x kk
  | .addKk x kk => Laws.RowFits.addKk x kk
  | .ldVy x y => Laws.RowFits.ldVy x y
  | .orVy x y => Laws.RowFits.orVy x y
  | .andVy x y => Laws.RowFits.andVy x y
  | .xorVy x y => Laws.RowFits.xorVy x y
  | .addVy x y => Laws.RowFits.addVy x y
  | .subVy x y => Laws.RowFits.subVy x y
  | .shr x y => Laws.RowFits.shr x y
  | .subnVy x y => Laws.RowFits.subnVy x y
  | .shl x y => Laws.RowFits.shl x y
  | .sneVy x y => Laws.RowFits.sneVy x y
  | .ldI nnn => Laws.RowFits.ldI nnn
  | .jpV0 nnn => Laws.RowFits.jpV0 nnn
  | .rnd x kk => Laws.RowFits.rnd x kk
  | .drw x y n => Laws.RowFits.drw x y n
  | .skp x => Laws.RowFits.skp x
  | .sknp x => Laws.RowFits.sknp x
  | .ldVxDt x => Laws.RowFits.ldVxDt x
  | .ldVxK x => Laws.RowFits.ldVxK x
  | .ldDtVx x => Laws.RowFits.ldDtVx x
  | .ldStVx x => Laws.RowFits.ldStVx x
  | .addIVx x => Laws.RowFits.addIVx x
  | .ldFVx x => Laws.RowFits.ldFVx x
  | .ldBVx x => Laws.RowFits.ldBVx x
  | .storeRegs x => Laws.RowFits.storeRegs x
  | .loadRegs x => Laws.RowFits.loadRegs x

theorem group_of_and_mask {op mask m : Word} (h : op &&& mask = m) (hmask : (fields mask).group = 0xF#4) :
    (fields op).group = (fields m).group := by
  have hand : (fields (op &&& mask)).group = (fields op).group &&& (fields mask).group := BitVec.extractLsb'_and
  rw [← h, hand, hmask, Laws.RowFits.and_15]

theorem n_of_and_mask {op mask m : Word} (h : op &&& mask = m) (hmask : (fields mask).n = 0xF#4) :
    (fields op).n = (fields m).n := by
  have hand : (fields (op &&& mask)).n = (fields op).n &&& (fields mask).n := BitVec.extractLsb'_and
  rw [← h, hand, hmask, Laws.RowFits.and_15]

theorem kk_of_and_mask {op mask m : Word} (h : op &&& mask = m) (hmask : (fields mask).kk = 0xFF#8) :
    (fields op).kk = (fields m).kk := by
  have hand : (fields (op &&& mask)).kk = (fields op).kk &&& (fields mask).kk := BitVec.extractLsb'_and
  rw [← h, hand, hmask, Laws.RowFits.and_255]

/-- The bits a row fixes are enough for the decoder to find an instruction of that row. -/
theorem exists_decodeWord_of_and_row_mask {op : Word} (i : Instr) (h : op &&& i.row.mask = i.row.mtch) :
    ∃ j, decodeWord op = some j ∧ j.row = i.row := by
  cases i with
  | cls | ret =>
    obtain rfl : op = _ := (BitVec.and_allOnes (x := op)).symm.trans h
    exact ⟨_, rfl, rfl⟩
  | jp | call | ldI | jpV0 =>
    dsimp only [Instr.row] at h
    exact ⟨_, decodeWord_of_nnn (group_of_and_mask h rfl) rfl, rfl⟩
  | seKk | sneKk | ldKk | addKk | rnd =>
    dsimp only [Instr.row] at h
    exact ⟨_, decodeWord_of_x_kk (group_of_and_mask h rfl) rfl rfl, rfl⟩
  | drw =>
    dsimp only [Instr.row] at h
    exact ⟨_, decodeWord_of_x_y_n (group_of_and_mask h rfl) rfl rfl rfl, rfl⟩
  | seVy | sneVy | ldVy | orVy | andVy | xorVy | addVy | subVy | shr | subnVy | shl =>
    dsimp only [Instr.row] at h
    exact ⟨_, decodeWord_of_x_y_n (group_of_and_mask h rfl) rfl rfl (n_of_and_mask h rfl), rfl⟩
  | skp | sknp | ldVxDt | ldVxK | ldDtVx | ldStVx | addIVx | ldFVx | ldBVx | storeRegs | loadRegs =>
    dsimp only [Instr.row] at h
    exact ⟨_, decodeWord_of_x_kk (group_of_and_mask h rfl) rfl (kk_of_and_mask h rfl), rfl⟩

/-- The match word of each row is itself an instruction of that row. -/
theorem exists_row_eq {r : Row} (hr : r ∈ opcodeRows) : ∃ i : Instr, i.row = r := by
  have hall : ∀ r ∈ opcodeRows, (decodeWord r.mtch).map Instr.row = some r := by decide
  obtain ⟨i, -, hi⟩ := Option.map_eq_some_iff.1 (hall r hr)
  exact ⟨i, hi⟩

/-- Settles O5: the fixed bits determine the decoder's branch, and the decoded instruction's own word has them. -/
theorem wordIsInstructionOfItsRow : Obligations.WordIsInstructionOfItsRow := by
  refine ⟨rfl, fun op r hr => ⟨fun h => ?_, ?_⟩⟩
  · obtain ⟨i, rfl⟩ := exists_row_eq hr
    exact exists_decodeWord_of_and_row_mask i h
  · rintro ⟨i, hi, rfl⟩
    rw [← encodeOfDecode op i hi]
    exact (Laws.RowFits.fits_iff _ _).1 (rowFits i).1

/-- Settles O1: each word runs through the decoder. -/
theorem sampleWordsDecode : Obligations.SampleWordsDecode := by
  unfold Obligations.SampleWordsDecode
  decide

/-! ### Illegal words (R51) -/

theorem decodeGroup0_eq_none_iff (f : Fields) : decodeGroup0 f = none ↔ f.op ≠ 0x00E0 ∧ f.op ≠ 0x00EE := by
  unfold decodeGroup0
  split
  case h_1 hop | h_2 hop => exact iff_of_false (Option.some_ne_none _) (by rw [hop]; decide)
  case h_3 hcls hret => exact iff_of_true rfl ⟨hcls, hret⟩

theorem decodeGroup8_eq_none_iff (f : Fields) :
    decodeGroup8 f = none ↔ f.n ∈ [0x8#4, 0x9#4, 0xA#4, 0xB#4, 0xC#4, 0xD#4, 0xF#4] := by
  unfold decodeGroup8
  split
  case h_10 =>
    refine iff_of_true rfl ?_
    generalize f.n = n at *
    revert n
    decide
  all_goals
    rename_i hn
    exact iff_of_false (Option.some_ne_none _) (by rw [hn]; decide)

theorem decodeGroupE_eq_none_iff (f : Fields) : decodeGroupE f = none ↔ f.kk ∉ [0x9E#8, 0xA1#8] := by
  unfold decodeGroupE
  split
  case h_3 => exact iff_of_true rfl (by simp_all)
  all_goals
    rename_i hkk
    exact iff_of_false (Option.some_ne_none _) (by rw [hkk]; decide)

theorem decodeGroupF_eq_none_iff (f : Fields) : decodeGroupF f = none ↔
    f.kk ∉ [0x07#8, 0x0A#8, 0x15#8, 0x18#8, 0x1E#8, 0x29#8, 0x33#8, 0x55#8, 0x65#8] := by
  unfold decodeGroupF
  split
  case h_10 => exact iff_of_true rfl (by simp_all)
  all_goals
    rename_i hkk
    exact iff_of_false (Option.some_ne_none _) (by rw [hkk]; decide)

/-- Only six groups have illegal words, each by its own selector. -/
theorem decodeFields_eq_none_iff (f : Fields) : decodeFields f = none ↔
    (f.group = 0x0 ∧ decodeGroup0 f = none) ∨ (f.group = 0x5 ∧ f.n ≠ 0) ∨ (f.group = 0x8 ∧ decodeGroup8 f = none) ∨
    (f.group = 0x9 ∧ f.n ≠ 0) ∨ (f.group = 0xE ∧ decodeGroupE f = none) ∨ (f.group = 0xF ∧ decodeGroupF f = none) := by
  unfold decodeFields
  split
  case h_17 =>
    exfalso
    generalize f.group = g at *
    revert g
    decide
  all_goals
    rename_i hgroup
    simp [hgroup]

theorem decodeWord_eq_none_iff (op : Word) : decodeWord op = none ↔
    ((fields op).group = 0x0 ∧ op ≠ 0x00E0 ∧ op ≠ 0x00EE) ∨
    ((fields op).group = 0x5 ∧ (fields op).n ≠ 0) ∨
    ((fields op).group = 0x8 ∧ (fields op).n ∈ [0x8#4, 0x9#4, 0xA#4, 0xB#4, 0xC#4, 0xD#4, 0xF#4]) ∨
    ((fields op).group = 0x9 ∧ (fields op).n ≠ 0) ∨
    ((fields op).group = 0xE ∧ (fields op).kk ∉ [0x9E#8, 0xA1#8]) ∨
    ((fields op).group = 0xF ∧
      (fields op).kk ∉ [0x07#8, 0x0A#8, 0x15#8, 0x18#8, 0x1E#8, 0x29#8, 0x33#8, 0x55#8, 0x65#8]) := by
  rw [decodeWord, decodeFields_eq_none_iff, decodeGroup0_eq_none_iff, decodeGroup8_eq_none_iff,
    decodeGroupE_eq_none_iff, decodeGroupF_eq_none_iff]
  rfl

end Sys2Proof
end

section
/-! The step by what the fetch and the decode answer (R61, R62), and its status and the state after it (R140, R145). -/

namespace Sys2Proof

namespace Machine

theorem step_of_fetchDecode_ok {s : State} {i : Instr} (h : fetchDecode s = .ok i) : step s = exec i s := by
  simp only [step, h]

theorem step_of_fetchDecode_error {s : State} {f : Fault} (h : fetchDecode s = .error f) : step s = .fault f := by
  simp only [step, h, raise_eq]

/-- A fetch that would reach beyond the memory faults, on the lowest address that is not there (R34, D1). -/
theorem step_of_pc_beyond {s : State} (h : 0xFFE < s.pc.toNat) :
    step s = .fault (.addressOutOfRange (max s.pc.toNat 0x1000)) := by
  obtain ⟨-, hfetch⟩ | ⟨hpc, -⟩ | ⟨hpc, -⟩ := fetchDecode_cases s
  · exact step_of_fetchDecode_error hfetch
  all_goals omega

theorem step_of_illegal_word {s : State} (hpc : s.pc.toNat ≤ 0xFFE) (hword : decodeWord (s.wordAt s.pc.toNat) = none) :
    step s = .fault (.unknownOpcode (s.wordAt s.pc.toNat)) := by
  obtain ⟨hbeyond, -⟩ | ⟨-, -, hfetch⟩ | ⟨-, i, hi, -⟩ := fetchDecode_cases s
  · omega
  · exact step_of_fetchDecode_error hfetch
  · rw [hword] at hi
    cases hi

theorem withFetchWord_toNat (s : State) (w : Word) : s.withFetchWord 16 w.toNat = s.placeWord w := by
  rw [State.withFetchWord, tableWord_toNat]

theorem afterStep_of_next {s t : State} (h : step s = .next t) : afterStep s = t := by
  simp only [afterStep, h]

theorem afterStep_of_fault {s : State} {f : Fault} (h : step s = .fault f) : afterStep s = s := by
  simp only [afterStep, h]

theorem stepStatus_of_fault {s : State} {f : Fault} (h : step s = .fault f) : stepStatus s = .error f := by
  simp only [stepStatus, h]

theorem stepStatus_of_next {s t : State} (h : step s = .next t) :
    stepStatus s = if s.waitsForKey then .needsInput else .ok := by
  simp only [stepStatus, h]

theorem leastKey_eq_none_iff (s : State) : s.leastKey = none ↔ ∀ k, s.keyDown k = false := by
  obtain ⟨hnone, hup⟩ | ⟨k, hsome, hdown, -⟩ := s.leastKey_cases
  · exact iff_of_true hnone hup
  · exact iff_of_false (by simp [hsome]) fun hup => by simp [hup k] at hdown

theorem waitsForKey_iff (s : State) :
    s.waitsForKey = true ↔ ∃ x, fetchDecode s = .ok (.ldVxK x) ∧ ∀ k, s.keyDown k = false := by
  unfold State.waitsForKey
  split
  case h_1 x hfetch => simp [hfetch, leastKey_eq_none_iff]
  case h_2 hother => exact iff_of_false Bool.false_ne_true fun ⟨x, hfetch, _⟩ => hother x hfetch

end Machine

open Machine

/-- Settles O6, by the decoder's branches, group by group, and by the fetch that finds no instruction. -/
theorem illegalWordsRaiseUnknownOpcode : Obligations.IllegalWordsRaiseUnknownOpcode :=
  ⟨decodeWord_eq_none_iff, fun _ hpc hword =>
    have hstep := step_of_illegal_word hpc hword
    ⟨hstep, afterStep_of_fault hstep⟩⟩

/-- Settles O7: the two bytes are the word that the fetch reads. -/
theorem stepRunsTheDecodedInstruction : Obligations.StepRunsTheDecodedInstruction :=
  fun _ _ hpc hword => step_eq_exec hpc hword

/-- Settles O8: both clauses are the one check of the fetch. -/
theorem fetchBeyondMemoryFaults : Obligations.FetchBeyondMemoryFaults := by
  intro s
  have hbeyond (addr : Nat) (hpc : 0xFFE < s.pc.toNat) (haddr : max s.pc.toNat 0x1000 = addr) :
      step s = .fault (.addressOutOfRange addr) ∧ afterStep s = s := by
    subst haddr
    exact ⟨step_of_pc_beyond hpc, afterStep_of_fault (step_of_pc_beyond hpc)⟩
  exact ⟨fun hpc => hbeyond _ (by omega) (by omega), fun hpc => hbeyond _ (by omega) (by omega)⟩

/-- Settles O9: the word placed is the word fetched, and it was encoded, so it decodes to the instruction. -/
theorem placedWordRunsNext : Obligations.PlacedWordRunsNext := by
  intro s i hpc
  obtain ⟨hplaced, hword⟩ := wordAt_placeWord s (encode i) hpc
  rw [withFetchWord_toNat]
  apply step_eq_exec
  · rwa [hplaced]
  · rw [hplaced, hword, decodeWord_encode]

theorem decodeWord_of_jp_toNat {op : Word} (hlow : 0x1000 ≤ op.toNat) (hhigh : op.toNat < 0x2000) :
    decodeWord op = some (.jp (fields op).nnn) := by
  have hgroup : (fields op).group = 0x1#4 :=
    BitVec.eq_of_toNat_eq ((fields_group_toNat op).trans (by rw [BitVec.toNat_ofNat]; omega))
  exact decodeWord_of_nnn hgroup rfl

/-- Settles O56: the jump's own address is already in pc. -/
theorem idleLoopIsAFixedPoint : Obligations.IdleLoopIsAFixedPoint := by
  rintro s ⟨hpc, hword⟩
  have hdecode := decodeWord_of_jp_toNat (op := s.wordAt s.pc.toNat) (by omega) (by omega)
  have hfetch := (fetchDecode_ok_iff s _).2 ⟨hpc, hdecode⟩
  have htarget : absolute (fields (s.wordAt s.pc.toNat)).nnn = s.pc := by
    apply BitVec.eq_of_toNat_eq
    rw [absolute_toNat, fields_nnn_toNat]
    omega
  have hstep : step s = .next s := by
    rw [step_of_fetchDecode_ok hfetch, exec_jp, htarget]
    rfl
  have hwait : ¬s.waitsForKey = true := by
    rw [waitsForKey_iff, hfetch]
    rintro ⟨x, hx, -⟩
    cases hx
  exact ⟨hstep, by rw [stepStatus_of_next hstep, if_neg hwait]⟩

end Sys2Proof
end

section
/-! Frames put together, and what is known of a state that an instruction answered. -/

namespace Sys2Proof.Machine

theorem keeps_trans {s t u : State} {p : Part} (hst : Keeps s t p) (htu : Keeps t u p) : Keeps s u p := by
  cases p with
  | stack => exact ⟨htu.1.trans hst.1, fun k => (htu.2 k).trans (hst.2 k)⟩
  | screen => exact fun r c => (htu r c).trans (hst r c)
  | mem | regs | keys => exact fun a => (htu a).trans (hst a)
  | index | redraw | delay | sound | draws => exact Eq.trans htu hst

theorem keepsAllBut_trans {touched : List Part} {s t u : State} (hst : KeepsAllBut touched s t)
    (htu : KeepsAllBut touched t u) : KeepsAllBut touched s u :=
  fun p hp => keeps_trans (hst p hp) (htu p hp)

theorem keepsAllBut_mono {touched touched' : List Part} {s t : State} (hsub : touched ⊆ touched')
    (h : KeepsAllBut touched s t) : KeepsAllBut touched' s t :=
  fun p hp => h p fun hmem => hp (hsub hmem)

/-- An instruction answers at most one state, so what completion says holds of the one it answered. -/
theorem post_of_completes {i : Instr} {s t : State} {post : State → Prop} (h : Completes i s post)
    (hexec : exec i s = .next t) : post t := by
  obtain ⟨u, hu, hpost⟩ := h
  cases hu.symm.trans hexec
  exact hpost

end Sys2Proof.Machine
end

section
/-! Calls and returns together (R63, R65, S6, S7), and the jump with an offset (R66). -/

namespace Sys2Proof

namespace Machine

theorem offsetTarget_toNat (nnn : Addr12) (v0 : Byte) : (offsetTarget nnn v0).toNat = nnn.toNat + v0.toNat := by
  rw [offsetTarget, BitVec.toNat_ofNat]
  omega

theorem exec_jpV0 (nnn : Addr12) (s : State) :
    exec (.jpV0 nnn) s = .next (s.setPc (offsetTarget nnn (s.readV 0))) := rfl

/-- A call completes exactly where the stack has room (R65). -/
theorem sp_lt_of_exec_call {nnn : Addr12} {s t : State} (h : exec (.call nnn) s = .next t) : s.sp.val < 16 := by
  by_contra hfull
  have hfault := ((callPushesTheReturnAddress nnn).2 s).2 (by omega)
  cases hfault.symm.trans h

theorem callChain_cons_of_next {nnn : Addr12} {rest : List Addr12} {s t : State} (h : exec (.call nnn) s = .next t) :
    callChain (nnn :: rest) s = callChain rest t := by
  simp only [callChain, h]

theorem callChain_cons_of_fault {nnn : Addr12} {rest : List Addr12} {s : State} {f : Fault}
    (h : exec (.call nnn) s = .fault f) : callChain (nnn :: rest) s = .fault f := by
  simp only [callChain, h]

end Machine

open Machine

/-- Settles O15: the jump is one write of pc, of a sum that a word holds whole. -/
theorem jumpWithOffsetAddsV0 : Obligations.JumpWithOffsetAddsV0 := fun nnn s =>
  ⟨_, exec_jpV0 nnn s, offsetTarget_toNat _ _, keepsAllBut_setPc (keepsAllBut_refl [] s) _⟩

/-- Settles O18: the call's entry is the one that the return pops, and the return leaves the stack's entries alone. -/
theorem returnComesBackAfterCall : Obligations.ReturnComesBackAfterCall := by
  intro nnn s t hcall
  have hroom := sp_lt_of_exec_call hcall
  obtain ⟨-, hsp, hstack, hframe⟩ := post_of_completes (((callPushesTheReturnAddress nnn).2 s).1 hroom) hcall
  obtain ⟨u, hret, hpc, husp, hustack, huframe⟩ := (returnPopsIntoPc.2 t).1 ⟨s.sp.val, hroom⟩ hsp
  refine ⟨u, hret, ?_, Fin.ext husp, fun k hk => ?_, keepsAllBut_trans hframe huframe⟩
  · rw [hpc, hstack, if_pos rfl]
  · rw [hustack, hstack, if_neg hk]

/-- Settles O19, by induction on the calls, from any depth of the stack. -/
theorem callChainFitsTheStack : Obligations.CallChainFitsTheStack := by
  intro targets
  induction targets with
  | nil => exact fun s => ⟨fun _ => ⟨s, rfl, rfl, keepsAllBut_refl _ s⟩, fun h => by rw [List.length_nil] at h; omega⟩
  | cons nnn rest ih =>
    intro s
    rw [List.length_cons]
    obtain ⟨hcompletes, hoverflow⟩ := (callPushesTheReturnAddress nnn).2 s
    by_cases hroom : s.sp.val < 16
    · obtain ⟨t, hcall, -, hsp, -, hframe⟩ := hcompletes hroom
      rw [callChain_cons_of_next hcall]
      refine ⟨fun hfits => ?_, fun hlong => (ih t).2 (by omega)⟩
      obtain ⟨u, hchain, husp, huframe⟩ := (ih t).1 (by omega)
      exact ⟨u, hchain, by omega, keepsAllBut_trans hframe huframe⟩
    · exact ⟨fun hfits => by omega, fun _ => callChain_cons_of_fault (hoverflow (by omega))⟩

end Sys2Proof
end

section
/-! Skips on two registers and on a key (R83 to R86). -/

namespace Sys2Proof

namespace Machine

theorem exec_seVy (x y : Nibble) (s : State) :
    exec (.seVy x y) s = .next (s.setPc (if s.readV x = s.readV y then s.pc + 4 else s.pc + 2)) := by
  simp only [exec, execSeVy, skipIf_eq, beq_iff_eq]

theorem exec_sneVy (x y : Nibble) (s : State) :
    exec (.sneVy x y) s = .next (s.setPc (if s.readV x = s.readV y then s.pc + 2 else s.pc + 4)) := by
  simp only [exec, execSneVy, skipIf_eq, bne_iff_ne, ne_eq, ite_not]

theorem lowNibble_toNat (b : Byte) : (lowNibble b).toNat = b.toNat % 16 := BitVec.toNat_setWidth 4 b

theorem exec_skp (x : Nibble) (s : State) :
    exec (.skp x) s =
      .next (s.setPc (if s.keyDown (lowNibble (s.readV x)) = true then s.pc + 4 else s.pc + 2)) := by
  simp only [exec, execSkp, skipIf_eq]

theorem exec_sknp (x : Nibble) (s : State) :
    exec (.sknp x) s =
      .next (s.setPc (if s.keyDown (lowNibble (s.readV x)) = true then s.pc + 2 else s.pc + 4)) := by
  simp only [exec, execSknp, skipIf_eq, Bool.not_eq_true', ← Bool.not_eq_true, ite_not]

theorem completes_of_setPc {i : Instr} {s : State} {w : Word} (hexec : exec i s = .next (s.setPc w)) :
    Completes i s fun t => t.pc = w ∧ KeepsAllBut [] s t :=
  ⟨_, hexec, rfl, keepsAllBut_setPc (keepsAllBut_refl [] s) w⟩

end Machine

open Machine

/-- Settles O21: `n` must be 0 in both groups, and each skip is one write of pc. -/
theorem skipsOnTwoRegisters : Obligations.SkipsOnTwoRegisters := fun x y =>
  ⟨decodeWord_gxyn _ x y 0, decodeWord_gxyn _ x y 0,
    fun n hn => ⟨(decodeWord_gxyn _ x y n).trans (if_neg hn), (decodeWord_gxyn _ x y n).trans (if_neg hn)⟩,
    fun s => ⟨completes_of_setPc (exec_seVy x y s), completes_of_setPc (exec_sneVy x y s)⟩⟩

/-- Settles O22: the key is the one that the low nibble numbers, and each skip is one write of pc. -/
theorem skipsOnAKey : Obligations.SkipsOnAKey := by
  intro x k s hk
  obtain rfl : lowNibble (s.readV x) = k := BitVec.eq_of_toNat_eq ((lowNibble_toNat _).trans hk)
  exact ⟨completes_of_setPc (exec_skp x s), completes_of_setPc (exec_sknp x s)⟩

end Sys2Proof
end

section
/-! Copy, logic, subtraction and random (R93 to R96, R98, R100, R102), and the reading of DT (R130). -/

namespace Sys2Proof

namespace Machine

theorem exec_ldVy (x y : Nibble) (s : State) :
    exec (.ldVy x y) s = .next ((s.writeV x (s.readV y)).setPc (s.pc + 2)) := rfl

theorem exec_orVy (x y : Nibble) (s : State) :
    exec (.orVy x y) s = .next ((s.writeV x (s.readV x ||| s.readV y)).setPc (s.pc + 2)) := rfl

theorem exec_andVy (x y : Nibble) (s : State) :
    exec (.andVy x y) s = .next ((s.writeV x (s.readV x &&& s.readV y)).setPc (s.pc + 2)) := rfl

theorem exec_xorVy (x y : Nibble) (s : State) :
    exec (.xorVy x y) s = .next ((s.writeV x (s.readV x ^^^ s.readV y)).setPc (s.pc + 2)) := rfl

theorem exec_subVy (x y : Nibble) (s : State) :
    exec (.subVy x y) s = .next ((s.writeResultFlag x (s.readV x - s.readV y)
      (noBorrow (s.readV x) (s.readV y))).setPc (s.pc + 2)) := rfl

theorem exec_subnVy (x y : Nibble) (s : State) :
    exec (.subnVy x y) s = .next ((s.writeResultFlag x (s.readV y - s.readV x)
      (noBorrow (s.readV y) (s.readV x))).setPc (s.pc + 2)) := rfl

theorem exec_rnd (x : Nibble) (kk : Byte) (s : State) :
    exec (.rnd x kk) s = .next ((s.writeV x (s.randomByte &&& kk)).countDraw.setPc (s.pc + 2)) := rfl

theorem exec_ldVxDt (x : Nibble) (s : State) : exec (.ldVxDt x) s = .next ((s.writeV x s.dt).setPc (s.pc + 2)) := rfl

theorem exec_ldDtVx (x : Nibble) (s : State) :
    exec (.ldDtVx x) s = .next ((s.setDt (s.readV x)).setPc (s.pc + 2)) := rfl

theorem exec_ldStVx (x : Nibble) (s : State) :
    exec (.ldStVx x) s = .next ((s.setSt (s.readV x)).setPc (s.pc + 2)) := rfl

/-- The difference of two bytes is the integers' difference, wrapped (R104). -/
theorem toNat_sub_eq_emod (a b : Byte) : (a - b).toNat = ((a.toNat - b.toNat : Int) % 256).toNat := by
  have ha := a.isLt
  have hb := b.isLt
  rw [BitVec.toNat_sub]
  omega

theorem noBorrow_iff (minuend subtrahend : Byte) :
    noBorrow minuend subtrahend = true ↔ minuend.toNat ≥ subtrahend.toNat := decide_eq_true_iff

theorem keepsAllBut_regs_draws (s : State) (v : Vector Byte 16) (draws : Nat) :
    KeepsAllBut [.regs, .draws] s { s with v := v, draws := draws } := by
  intro p hp
  have hkeeps := keeps_refl s p
  cases p with
  | regs | draws => exact absurd (by decide) hp
  | _ => exact hkeeps

theorem keepsAllBut_setDt (s : State) (b : Byte) : KeepsAllBut [.delay] s (s.setDt b) := by
  intro p hp
  have hkeeps := keeps_refl s p
  cases p with
  | delay => exact absurd (List.mem_singleton_self _) hp
  | _ => exact hkeeps

theorem keepsAllBut_setSt (s : State) (b : Byte) : KeepsAllBut [.sound] s (s.setSt b) := by
  intro p hp
  have hkeeps := keeps_refl s p
  cases p with
  | sound => exact absurd (List.mem_singleton_self _) hp
  | _ => exact hkeeps

end Machine

open Machine

/-- Settles O24: each is one register write, of the byte that the two registers give bit by bit. -/
theorem copyAndLogicWriteNoFlag : Obligations.CopyAndLogicWriteNoFlag := fun x y s =>
  ⟨completes_of_writeV (exec_ldVy x y s) rfl, completes_of_writeV (exec_orVy x y s) (BitVec.toNat_or _ _),
    completes_of_writeV (exec_andVy x y s) (BitVec.toNat_and _ _),
    completes_of_writeV (exec_xorVy x y s) (BitVec.toNat_xor _ _)⟩

/-- Settles O26: the wrapped difference and the absence of a borrow are the byte and the flag written, in that order. -/
theorem subtractionsSetNoBorrow : Obligations.SubtractionsSetNoBorrow := fun x y s =>
  ⟨completes_of_writeResultFlag (exec_subVy x y s) (toNat_sub_eq_emod _ _) (noBorrow_iff _ _),
    completes_of_writeResultFlag (exec_subnVy x y s) (toNat_sub_eq_emod _ _) (noBorrow_iff _ _)⟩

/-- Settles O28: the byte written is the drawn one under the mask, so no bit outside the mask is in it. -/
theorem randomByteIsMasked : Obligations.RandomByteIsMasked := by
  refine fun x kk => ⟨decodeWord_gxkk _ x kk, fun s => ⟨_, exec_rnd x kk s, writesReg_writeV s x _, ?_, rfl, rfl,
    keepsAllBut_setPc (keepsAllBut_regs_draws s _ _) _⟩⟩
  have hx : (s.writeV x (s.randomByte &&& kk)).readV x = s.randomByte &&& kk :=
    (s.readV_writeV x x _).trans (if_pos rfl)
  rw [State.setPc_readV, State.countDraw_readV, hx, BitVec.and_assoc, BitVec.and_not_self]
  exact BitVec.and_zero

/-- Settles O40: each moves one byte, and pc. -/
theorem timerInstructionsMoveTheTimers : Obligations.TimerInstructionsMoveTheTimers := fun x s =>
  ⟨completes_of_writeV (exec_ldVxDt x s) rfl,
    ⟨_, exec_ldDtVx x s, rfl, rfl, keepsAllBut_setPc (keepsAllBut_setDt s _) _⟩,
    ⟨_, exec_ldStVx x s, rfl, rfl, keepsAllBut_setPc (keepsAllBut_setSt s _) _⟩⟩

end Sys2Proof
end

section
/-! The index register (R111, R112). -/

namespace Sys2Proof

namespace Machine

theorem addIndex_frame (quirk : Bool) (x : Nibble) (s : State) :
    addIndex quirk x s =
      { s with i := BitVec.ofNat 16 (indexSum s.i (s.readV x)), v := (addIndex quirk x s).v } := by
  cases quirk <;> rfl

theorem readV_addIndex (quirk : Bool) (x r : Nibble) (s : State) :
    (addIndex quirk x s).readV r =
      if quirk = true ∧ r = flagReg then flagByte (indexOverflow (indexSum s.i (s.readV x))) else s.readV r := by
  cases quirk with
  | false => simp [addIndex]
  | true => simp [addIndex, State.writeFlag, State.readV_writeV]

theorem flagByte_indexOverflow (sum : Nat) : flagByte (indexOverflow sum) = if sum > 0xFFF then 1 else 0 := by
  simp only [flagByte, indexOverflow, decide_eq_true_eq]

theorem exec_addIVx (x : Nibble) (s : State) :
    exec (.addIVx x) s = .next ((addIndex Config.quirkFx1eVf x s).setPc (s.pc + 2)) := by
  have hpc : (addIndex Config.quirkFx1eVf x s).pc = s.pc := by rw [addIndex_frame]
  simp only [exec, execAddIVx, finish_eq, State.withNext_advance, hpc]

theorem keepsAllBut_index_regs (s : State) (i : Word) (v : Vector Byte 16) :
    KeepsAllBut [.index, .regs] s { s with i := i, v := v } := by
  intro p hp
  have hkeeps := keeps_refl s p
  cases p with
  | index | regs => exact absurd (by decide) hp
  | _ => exact hkeeps

theorem glyphAddress_toNat {base : Nat} (hbase : base < 433) (d : Nibble) :
    (glyphAddress base d).toNat = base + 5 * d.toNat := by
  rw [glyphAddress, BitVec.toNat_ofNat, Config.glyphStride]
  omega

theorem exec_ldFVx (x : Nibble) (s : State) :
    exec (.ldFVx x) s =
      .next ((s.setI (glyphAddress Config.fontBase.val (lowNibble (s.readV x)))).setPc (s.pc + 2)) := rfl

end Machine

open Machine

/-- Settles O30: I takes the wrapped sum, and VF is the one register that the quirk writes. -/
theorem addToIndexUnderTheQuirk : Obligations.AddToIndexUnderTheQuirk := by
  intro x s
  have hframe : KeepsAllBut [.index, .regs] s (addIndex Config.quirkFx1eVf x s) := by
    rw [addIndex_frame]
    exact keepsAllBut_index_regs s _ _
  refine ⟨_, exec_addIVx x s, ?_, fun r => ?_, rfl, keepsAllBut_setPc hframe _⟩
  · rw [State.setPc_i, addIndex_frame, BitVec.toNat_ofNat, indexSum]
  · rw [State.setPc_readV, readV_addIndex, flagByte_indexOverflow, indexSum]

/-- Settles O31: fifteen glyphs of five bytes after the greatest base are still below 0x200. -/
theorem pointAtGlyphOfLowNibble : Obligations.PointAtGlyphOfLowNibble := by
  intro x s
  have haddr := glyphAddress_toNat Config.fontBase.isLt (lowNibble (s.readV x))
  rw [lowNibble_toNat] at haddr
  refine ⟨_, exec_ldFVx x s, haddr, ?_, rfl, keepsAllBut_setPc (keepsAllBut_setI s _) _⟩
  rw [State.setPc_i, State.setI_i, haddr]
  omega

end Sys2Proof
end

section
/-! Stores and loads (R113 to R115): when they complete, and the bytes and registers they leave. -/

namespace Sys2Proof

namespace Machine

/-- A guarded access that then advances completes exactly in range (R33). -/
theorem guardRange_advance_next_iff {base len : Nat} {s t u : State} (hpc : u.pc = s.pc) :
    guardRange base len (finish .advance u) = .next t ↔
      (len = 0 ∨ base + len ≤ 4096) ∧ u.setPc (s.pc + 2) = t := by
  obtain ⟨hin, hgo⟩ | ⟨hout, hfault⟩ := guardRange_cases base len (finish .advance u)
  · rw [hgo, and_iff_right hin, finish_eq, State.withNext_advance, hpc, Host.Outcome.next.injEq]
  · rw [hfault]
    exact iff_of_false (fun h => by cases h) fun h => hout h.1

theorem keepsAllBut_mem (s : State) (mem : Memory) : KeepsAllBut [.mem] s { s with mem := mem } := by
  intro p hp
  have hkeeps := keeps_refl s p
  cases p with
  | mem => exact absurd (List.mem_singleton_self _) hp
  | _ => exact hkeeps

/-! ### `Fx33` -/

theorem exec_ldBVx_next_iff (x : Nibble) (s t : State) :
    exec (.ldBVx x) s = .next t ↔
      s.i.toNat + 3 ≤ 4096 ∧ (storeDigits (s.readV x) s).setPc (s.pc + 2) = t := by
  have hpc : (storeDigits (s.readV x) s).pc = s.pc := rfl
  rw [exec, execLdBVx, guardRange_advance_next_iff hpc, or_iff_right (by decide)]

theorem byteAt_storeDigits (b : Byte) (s : State) (p : Nat) :
    (storeDigits b s).byteAt p =
      if p = s.i.toNat + 2 then ones b
      else if p = s.i.toNat + 1 then tens b else if p = s.i.toNat then hundreds b else s.byteAt p := by
  simp only [storeDigits, State.byteAt_storeByte, State.effective, Nat.add_zero]

theorem hundreds_toNat (b : Byte) : (hundreds b).toNat = b.toNat / 100 := by
  rw [hundreds, BitVec.toNat_ofNat]
  omega

theorem tens_toNat (b : Byte) : (tens b).toNat = b.toNat / 10 % 10 := by
  rw [tens, BitVec.toNat_ofNat]
  omega

theorem ones_toNat (b : Byte) : (ones b).toNat = b.toNat % 10 := by
  rw [ones, BitVec.toNat_ofNat]
  omega

/-! ### `Fx55` and `Fx65` -/

theorem regCount_ne_zero (x : Nibble) : regCount x ≠ 0 := Nat.succ_ne_zero _

theorem exec_storeRegs_next_iff (x : Nibble) (s t : State) :
    exec (.storeRegs x) s = .next t ↔
      s.i.toNat + regCount x ≤ 4096 ∧ (storeFirst s (regCount x)).setPc (s.pc + 2) = t := by
  have hpc : (storeFirst s (regCount x)).pc = s.pc := by rw [storeFirst_frame]
  rw [exec, execStoreRegs, guardRange_advance_next_iff hpc, or_iff_right (regCount_ne_zero x)]

theorem exec_loadRegs_next_iff (x : Nibble) (s t : State) :
    exec (.loadRegs x) s = .next t ↔
      s.i.toNat + regCount x ≤ 4096 ∧ (loadFirst s (regCount x)).setPc (s.pc + 2) = t := by
  have hpc : (loadFirst s (regCount x)).pc = s.pc := by rw [loadFirst_frame]
  rw [exec, execLoadRegs, guardRange_advance_next_iff hpc, or_iff_right (regCount_ne_zero x)]

end Machine

open Machine

/-- Settles O32: the three stores are at different addresses, and a digit fits its byte. -/
theorem decimalDigitsAreStored : Obligations.DecimalDigitsAreStored := by
  intro x s hrange
  refine ⟨_, (exec_ldBVx_next_iff x s _).2 ⟨by omega, rfl⟩, ?_, ?_, ?_, fun a ha => ?_, rfl,
    keepsAllBut_setPc (keepsAllBut_mem s _) _⟩ <;> rw [State.setPc_byteAt, byteAt_storeDigits]
  · rw [if_neg (by omega), if_neg (by omega), if_pos rfl, hundreds_toNat]
  · rw [if_neg (by omega), if_pos rfl, tens_toNat]
  · rw [if_pos rfl, ones_toNat]
  · rw [if_neg (by omega), if_neg (by omega), if_neg (by omega)]

/-- Settles O33, by what the loop of stores leaves at each address. -/
theorem registersAreStoredFromIndex : Obligations.RegistersAreStoredFromIndex := by
  intro x s hrange
  have hframe : KeepsAllBut [.mem] s (storeFirst s (regCount x)) := by
    rw [storeFirst_frame]
    exact keepsAllBut_mem s _
  refine ⟨_, (exec_storeRegs_next_iff x s _).2 ⟨by rw [regCount]; omega, rfl⟩, fun r hr => ?_, fun a ha => ?_, rfl,
    keepsAllBut_setPc hframe _⟩ <;> rw [State.setPc_byteAt, byteAt_storeFirst, regCount]
  · rw [if_pos (by omega), Nat.add_sub_cancel_left, BitVec.ofNat_toNat, BitVec.setWidth_eq]
  · rw [if_neg (by omega)]

/-- Settles O34, by what the loop of loads leaves in each register. -/
theorem registersAreLoadedFromIndex : Obligations.RegistersAreLoadedFromIndex := by
  intro x s hrange
  have hframe : KeepsAllBut [.regs] s (loadFirst s (regCount x)) := by
    rw [loadFirst_frame]
    exact keepsAllBut_regs s _
  refine ⟨_, (exec_loadRegs_next_iff x s _).2 ⟨by rw [regCount]; omega, rfl⟩, fun r => ?_, rfl,
    keepsAllBut_setPc hframe _⟩
  rw [State.setPc_readV, readV_loadFirst s _ (by rw [regCount]; omega)]
  simp only [regCount, Nat.lt_succ_iff]

/-- What a completed `Fx55` leaves, from its completion alone. -/
theorem stored_of_exec_storeRegs {x : Nibble} {s t : State} (h : exec (.storeRegs x) s = .next t) :
    s.i.toNat + x.toNat ≤ 0xFFF ∧ t.i = s.i ∧
      ∀ r : Nibble, r.toNat ≤ x.toNat → t.byteAt (s.i.toNat + r.toNat) = s.readV r := by
  obtain ⟨hrange, -⟩ := (exec_storeRegs_next_iff x s t).1 h
  rw [regCount] at hrange
  obtain ⟨hbytes, -, -, hframe⟩ := post_of_completes (registersAreStoredFromIndex x s (by omega)) h
  exact ⟨by omega, hframe .index (by decide), hbytes⟩

/-- Settles O35: the load reads at the addresses that the store wrote, since neither moves I. -/
theorem loadBringsBackWhatWasStored : Obligations.LoadBringsBackWhatWasStored := by
  intro x s t u hstore hi hmem
  obtain ⟨hrange, hti, hbytes⟩ := stored_of_exec_storeRegs hstore
  rw [hti] at hi
  obtain ⟨w, hload, hregs, -⟩ := registersAreLoadedFromIndex x u (by rwa [hi])
  refine ⟨w, hload, fun r hr => ?_⟩
  rw [hregs, if_pos hr, hmem, hi, hbytes r hr]

/-- Settles O36: the two stored bytes are the word at their address, and no other place is fetched from. -/
theorem storesAreSeenByTheNextFetch : Obligations.StoresAreSeenByTheNextFetch := by
  intro x r q s t i hstore hq hqx hdecode
  obtain ⟨hrange, -, hbytes⟩ := stored_of_exec_storeRegs hstore
  have hpc : (BitVec.ofNat 16 (s.i.toNat + r.toNat)).toNat = s.i.toNat + r.toNat := by
    rw [BitVec.toNat_ofNat]
    omega
  have hword : t.wordAt (s.i.toNat + r.toNat) = s.readV r ++ s.readV q := by
    rw [State.wordAt, Nat.add_assoc, ← hq, hbytes r (by omega), hbytes q hqx, wordOfBytes]
  apply step_eq_exec
  · rw [State.setPc_pc, hpc]
    omega
  · rw [State.setPc_pc, hpc, ← hdecode, ← hword]
    rfl

end Sys2Proof
end

section
/-! The draw (R122, R123): when it completes, and the sprite's effect said through the pixels that it covers. -/

namespace Sys2Proof

namespace Machine

theorem exec_drw_next_iff (x y n : Nibble) (s t : State) :
    exec (.drw x y n) s = .next t ↔ (n.toNat = 0 ∨ s.i.toNat + n.toNat ≤ 4096) ∧
      (s.drawn (drawSprite x y n s)).setPc (s.pc + 2) = t := by
  have hpc : (s.drawn (drawSprite x y n s)).pc = s.pc := rfl
  rw [exec, execDrw, guardRange_advance_next_iff hpc]

theorem readV_drawn (s : State) (d : DrawAcc) (q : Nibble) :
    (s.drawn d).readV q = if q = flagReg then flagByte d.collided else s.readV q := by
  simp only [State.drawn, State.setRp_readV, State.writeFlag, State.readV_writeV, State.setFb_readV]

theorem keepsAllBut_drawn (s : State) (d : DrawAcc) : KeepsAllBut [.screen, .redraw, .regs] s (s.drawn d) := by
  intro p hp
  have hkeeps := keeps_refl s p
  cases p with
  | screen | redraw | regs => exact absurd (by decide) hp
  | _ => exact hkeeps

theorem Screen.pixel_mod (fb : Screen) (r c : Nat) : fb.pixel (r % 32) (c % 64) = fb.pixel r c := by
  simp only [Screen.pixel, Nat.mod_mod]

theorem SpriteCovers.mod_eq {s : State} {x y n : Nibble} {r c : Nat} (h : SpriteCovers s x y n r c) :
    r % 32 = r ∧ c % 64 = c := by
  obtain ⟨row, col, -, -, rfl, rfl, -⟩ := h
  exact ⟨Nat.mod_mod _ _, Nat.mod_mod _ _⟩

/-- The origin is reduced before the rows and columns are counted from it, which the wrap does not see. -/
theorem rowsCover_iff (s : State) (x y n : Nibble) (r c : Nat) :
    RowsCover s (originColumn (s.readV x)) (originRow (s.readV y)) n.toNat r c ↔
      SpriteCovers s x y n (r % 32) (c % 64) := by
  simp only [RowsCover, ColsCover, SpriteCovers, originColumn, originRow, Nat.mod_add_mod, State.effective, spriteBit]
  constructor
  · rintro ⟨row, hrow, col, hcol, hr, hc, hbit⟩
    exact ⟨row, col, hrow, hcol, hr, hc, hbit⟩
  · rintro ⟨row, col, hrow, hcol, hr, hc, hbit⟩
    exact ⟨row, hrow, col, hcol, hr, hc, hbit⟩

theorem drawSprite_drawn (x y n : Nibble) (s : State) :
    Drawn (fun r c => SpriteCovers s x y n (r % 32) (c % 64)) s.fb ⟨s.fb, false, false⟩ (drawSprite x y n s) := by
  have hrows := drawRows_drawn s (originColumn (s.readV x)) (originRow (s.readV y)) n.toNat (by omega)
    ⟨s.fb, false, false⟩
  have hcover := funext fun r => funext fun c => propext (rowsCover_iff s x y n r c)
  rwa [hcover] at hrows

theorem drawSprite_collided_iff (x y n : Nibble) (s : State) :
    (drawSprite x y n s).collided = true ↔ ∃ r c, SpriteCovers s x y n r c ∧ s.pixel r c = true := by
  rw [(drawSprite_drawn x y n s).collided]
  constructor
  · rintro (h | ⟨r, c, hcover, hlit⟩)
    · cases h
    · exact ⟨_, _, hcover, (s.fb.pixel_mod r c).trans hlit⟩
  · rintro ⟨r, c, hcover, hlit⟩
    exact .inr ⟨r, c, by rwa [hcover.mod_eq.1, hcover.mod_eq.2], hlit⟩

theorem drawSprite_changed_iff (x y n : Nibble) (s : State) :
    (drawSprite x y n s).changed = true ↔ ∃ r c, SpriteCovers s x y n r c := by
  rw [(drawSprite_drawn x y n s).changed]
  constructor
  · rintro (h | ⟨r, c, hcover⟩)
    · cases h
    · exact ⟨_, _, hcover⟩
  · rintro ⟨r, c, hcover⟩
    exact .inr ⟨r, c, by rwa [hcover.mod_eq.1, hcover.mod_eq.2]⟩

theorem spriteCovers_congr {s m : State} {x y n : Nibble} (hi : m.i = s.i) (hx : m.readV x = s.readV x)
    (hy : m.readV y = s.readV y)
    (hbytes : ∀ k, k < n.toNat → m.byteAt (s.i.toNat + k) = s.byteAt (s.i.toNat + k)) (r c : Nat) :
    SpriteCovers m x y n r c ↔ SpriteCovers s x y n r c := by
  unfold SpriteCovers
  rw [hi, hx, hy]
  refine exists₂_congr fun row col => and_congr_right fun hrow => ?_
  rw [hbytes row hrow]

end Machine

open Machine

/-- Settles O38, by what a finished draw is over the covered pixels. -/
theorem drawFlipsTheCoveredPixels : Obligations.DrawFlipsTheCoveredPixels := by
  intro x y n s hrange
  have hdrawn := drawSprite_drawn x y n s
  have hcover {r c : Nat} (hr : r < 32) (hc : c < 64) :
      SpriteCovers s x y n (r % 32) (c % 64) ↔ SpriteCovers s x y n r c := by
    rw [Nat.mod_eq_of_lt hr, Nat.mod_eq_of_lt hc]
  have hflag : (s.drawn (drawSprite x y n s)).readV flagReg = flagByte (drawSprite x y n s).collided :=
    (readV_drawn s _ flagReg).trans (if_pos rfl)
  refine ⟨_, (exec_drw_next_iff x y n s _).2 ⟨hrange, rfl⟩, fun r c hr hc => ⟨fun h => ?_, fun h => ?_⟩,
    fun h => ?_, fun h => ?_, fun q hq => ?_, ?_, rfl, keepsAllBut_setPc (keepsAllBut_drawn s _) _⟩
  · exact hdrawn.flipped r c ((hcover hr hc).2 h)
  · exact hdrawn.kept r c (mt (hcover hr hc).1 h)
  · rw [State.setPc_readV, hflag, (drawSprite_collided_iff x y n s).2 h]
    rfl
  · rw [State.setPc_readV, hflag, Bool.eq_false_iff.2 (mt (drawSprite_collided_iff x y n s).1 h)]
    rfl
  · rw [State.setPc_readV, readV_drawn, if_neg hq]
  · rw [← drawSprite_changed_iff, State.setPc_rp, State.drawn, State.setRp_rp, Bool.or_eq_true]

/-- Settles O39: the second draw covers the same pixels, each flipped twice, and lit now exactly where it was unlit. -/
theorem secondDrawRestoresTheFramebuffer : Obligations.SecondDrawRestoresTheFramebuffer := by
  intro x y n s t m hfirst hscreen hi hx hy hbytes
  obtain ⟨hrange, -⟩ := (exec_drw_next_iff x y n s t).1 hfirst
  obtain ⟨hpixels, -⟩ := post_of_completes (drawFlipsTheCoveredPixels x y n s hrange) hfirst
  obtain ⟨u, hsecond, hupixels, hset, hclear, -⟩ := drawFlipsTheCoveredPixels x y n m (by rwa [hi])
  have hcover := spriteCovers_congr hi hx hy hbytes
  have hmid {r c : Nat} (h : SpriteCovers s x y n r c) : m.pixel r c = !s.pixel r c := by
    have hr : r < 32 := by rw [← h.mod_eq.1]; exact Nat.mod_lt _ (by decide)
    have hc : c < 64 := by rw [← h.mod_eq.2]; exact Nat.mod_lt _ (by decide)
    rw [hscreen, (hpixels r c hr hc).1 h]
  have hlit : (∃ r c, SpriteCovers m x y n r c ∧ m.pixel r c = true) ↔
      ∃ r c, SpriteCovers s x y n r c ∧ s.pixel r c = false := by
    refine exists₂_congr fun r c => ?_
    rw [hcover]
    refine and_congr_right fun h => ?_
    rw [hmid h, Bool.not_eq_true']
  rw [hlit] at hset hclear
  refine ⟨u, hsecond, fun r c hr hc => ?_, hset, hclear⟩
  by_cases h : SpriteCovers s x y n r c
  · rw [(hupixels r c hr hc).1 ((hcover r c).2 h), hmid h, Bool.not_not]
  · rw [(hupixels r c hr hc).2 (mt (hcover r c).1 h), hscreen, (hpixels r c hr hc).2 h]

end Sys2Proof
end

section
/-! The key wait (R133), and what the host does to the state (R150 to R156). -/

namespace Sys2Proof

namespace Machine

/-! ### The key wait -/

theorem exec_ldVxK_of_leastKey_some {s : State} {k : Nat} (x : Nibble) (h : s.leastKey = some k) :
    exec (.ldVxK x) s = .next ((s.writeV x (BitVec.ofNat 8 k)).setPc (s.pc + 2)) := by
  simp only [exec, execLdVxK, h, finish_eq, State.withNext_advance, State.writeV_pc]

theorem exec_ldVxK_of_leastKey_none {s : State} (x : Nibble) (h : s.leastKey = none) :
    exec (.ldVxK x) s = .next s := by
  simp only [exec, execLdVxK, h, finish_eq, State.withNext_wait]

theorem leastKey_eq_some {s : State} {k : Nibble} (hdown : s.keyDown k = true)
    (hleast : ∀ j : Nibble, j.toNat < k.toNat → s.keyDown j = false) : s.leastKey = some k.toNat := by
  obtain ⟨-, hup⟩ | ⟨k', hsome, hdown', hleast'⟩ := s.leastKey_cases
  · simp [hup k] at hdown
  · have hle : k'.toNat ≤ k.toNat := by
      by_contra h
      simp [hleast' k (by omega)] at hdown
    have hge : k.toNat ≤ k'.toNat := by
      by_contra h
      simp [hleast k' (by omega)] at hdown'
    rw [hsome, Nat.le_antisymm hle hge]

/-- A step that waits leaves the whole state as it was, whichever register the key would go to. -/
theorem step_of_waitsForKey {s : State} (h : s.waitsForKey = true) : step s = .next s := by
  obtain ⟨x, hfetch, hup⟩ := (waitsForKey_iff s).1 h
  rw [step_of_fetchDecode_ok hfetch, exec_ldVxK_of_leastKey_none x ((leastKey_eq_none_iff s).2 hup)]

/-! ### Host events -/

theorem apply_keys (snapshot : BitVec 16) (s : State) :
    (HostEvent.keys snapshot).apply s = s.setKey (keysOfSnapshot snapshot) := by
  rw [HostEvent.apply]

theorem fetchDecode_setKey (s : State) (key : Vector Bool 16) : fetchDecode (s.setKey key) = fetchDecode s :=
  fetchDecode_congr s (s.setKey key) (s.setKey_pc key) (s.setKey_mem key)

theorem keyDown_keys (snapshot : BitVec 16) (s : State) (k : Nibble) :
    ((HostEvent.keys snapshot).apply s).keyDown k = snapshot.getLsbD k.toNat :=
  keysOfSnapshot_getElem snapshot k.toNat k.isLt

/-- A snapshot other than 0 has some key down, and so a least one. -/
theorem exists_leastKey_of_keys {snapshot : BitVec 16} (h : snapshot ≠ 0) (s : State) :
    ∃ k, ((HostEvent.keys snapshot).apply s).leastKey = some k := by
  refine Option.ne_none_iff_exists'.1 fun hnone => h (BitVec.eq_of_getLsbD_eq fun k hk => ?_)
  have hup := (leastKey_eq_none_iff _).1 hnone (BitVec.ofNat 4 k)
  rw [keyDown_keys, BitVec.toNat_ofNat, Nat.mod_eq_of_lt hk] at hup
  rw [hup, BitVec.ofNat_eq_ofNat, BitVec.getLsbD_zero]

theorem keepsAllBut_setKey (s : State) (key : Vector Bool 16) : KeepsAllBut [.keys] s (s.setKey key) := by
  intro p hp
  have hkeeps := keeps_refl s p
  cases p with
  | keys => exact absurd (List.mem_singleton_self _) hp
  | _ => exact hkeeps

theorem keepsAllBut_setRp (s : State) (b : Bool) : KeepsAllBut [.redraw] s (s.setRp b) := by
  intro p hp
  have hkeeps := keeps_refl s p
  cases p with
  | redraw => exact absurd (List.mem_singleton_self _) hp
  | _ => exact hkeeps

end Machine

open Machine

/-- Settles O41: the key named is the one that the search from 0 up finds. -/
theorem keyWaitTakesTheLeastKey : Obligations.KeyWaitTakesTheLeastKey := by
  intro x k s hdown hleast
  refine completes_of_writeV (exec_ldVxK_of_leastKey_some x (leastKey_eq_some hdown hleast)) ?_
  rw [BitVec.toNat_ofNat]
  omega

/-- Settles O42: the snapshot changes what the search for a key finds, and not what is fetched. -/
theorem keyWaitHoldsUntilAKeyIsDown : Obligations.KeyWaitHoldsUntilAKeyIsDown := by
  intro x s hfetch
  refine ⟨fun hup => ?_, fun snapshot hsnapshot => ?_⟩
  · have hwait : s.waitsForKey = true := (waitsForKey_iff s).2 ⟨x, hfetch, hup⟩
    have hstep := step_of_waitsForKey hwait
    exact ⟨hstep, by rw [stepStatus_of_next hstep, if_pos hwait]⟩
  · obtain ⟨k, hk⟩ := exists_leastKey_of_keys hsnapshot s
    rw [apply_keys] at hk ⊢
    have hfetch' := (fetchDecode_setKey s (keysOfSnapshot snapshot)).trans hfetch
    have hstep := (step_of_fetchDecode_ok hfetch').trans (exec_ldVxK_of_leastKey_some x hk)
    have hwait : ¬(s.setKey (keysOfSnapshot snapshot)).waitsForKey = true := by
      rw [waitsForKey_iff]
      rintro ⟨-, -, hup⟩
      rw [(leastKey_eq_none_iff _).2 hup] at hk
      cases hk
    exact ⟨by rw [stepStatus_of_next hstep, if_neg hwait],
      by rw [afterStep_of_next hstep, State.setPc_pc, State.setKey_pc]⟩

/-- Settles O43: the tick is the one decrement on each timer. -/
theorem timerTickCountsBothDown : Obligations.TimerTickCountsBothDown := fun s =>
  ⟨tickDown_toNat s.dt, tickDown_toNat s.st, rfl,
    keepsAllBut_trans (keepsAllBut_mono (by decide) (keepsAllBut_setDt s (tickDown s.dt)))
      (keepsAllBut_mono (by decide) (keepsAllBut_setSt _ (tickDown s.st)))⟩

/-- Settles O44: the array is replaced whole. -/
theorem keyUpdateReplacesAllEntries : Obligations.KeyUpdateReplacesAllEntries := by
  refine fun snapshot s => ⟨keyDown_keys snapshot s, ?_⟩
  rw [apply_keys]
  exact ⟨s.setKey_pc _, keepsAllBut_setKey s _⟩

/-- Settles O45: the acknowledgement is one write of RP. -/
theorem redrawAckClearsOnlyTheFlag : Obligations.RedrawAckClearsOnlyTheFlag := fun s =>
  ⟨rfl, rfl, keepsAllBut_setRp s false⟩

end Sys2Proof
end

section
/-! The reset state, its memory, the loader (R23, R165 to R167), and the canonical form of memory. -/

namespace Sys2Proof

namespace Machine

theorem initialWith_of_lt {base a : Nat} (font : Vector Byte 80) (hbase : base ≤ a) (ha : a < 0x200) :
    Memory.initialWith base font a = (font[a - base]?).getD 0 := by
  rw [Memory.initialWith, if_pos ha, if_pos hbase]

theorem initialWith_eq_zero {base a : Nat} (font : Vector Byte 80) (h : a < base ∨ base + 80 ≤ a) :
    Memory.initialWith base font a = 0 := by
  unfold Memory.initialWith
  split_ifs with hlow hbase
  · rw [Vector.getElem?_eq_none (by omega), Option.getD_none]
  all_goals rfl

theorem initial_eq_zero {a : Nat} (h : 0x200 ≤ a) : Memory.initial a = 0 :=
  if_neg (Nat.not_lt.2 h)

theorem reset_byteAt (a : Nat) : State.reset.byteAt a = Memory.initial a := rfl

/-- The bytes of a loaded machine: below 0x200 as at reset, from there up the ROM and then zeros. -/
theorem byteAt_load (rom : List Byte) (a : Nat) :
    State.byteAt { State.reset with mem := State.reset.mem.writeBytes Config.programBase rom } a =
      if a < 0x200 then State.reset.byteAt a else rom.getD (a - 0x200) 0 := by
  rw [State.byteAt, Memory.byte_writeBytes, Config.programBase, List.getD_eq_getElem?_getD]
  split_ifs with hrom hlow hlow
  · omega
  · rw [List.getElem?_eq_getElem hrom.2, Option.getD_some]
  · rfl
  · rw [List.getElem?_eq_none (by omega), Option.getD_none]
    exact initial_eq_zero (by omega)

theorem reset_inv : State.reset.Inv where
  mem_wf := Memory.wf_nil
  pc_le := by decide
  live _ hk := absurd hk (Nat.not_lt_zero _)

/-- In a canonical memory the cells listed are the bytes that differ from the reset contents. -/
theorem Memory.mem_iff_byte {m : Memory} (hm : m.wf) (a : Nat) (w : Byte) :
    (a, w) ∈ m ↔ m.byte a = w ∧ w ≠ Memory.initial a := by
  induction m with
  | nil => simpa [Memory.byte] using fun h => h.symm
  | cons c rest ih =>
    obtain ⟨b, u⟩ := c
    obtain ⟨hsorted, hcells⟩ := hm
    rw [List.pairwise_cons] at hsorted
    have hrest : Memory.wf rest := ⟨hsorted.2, fun c hc => hcells c (List.mem_cons_of_mem _ hc)⟩
    rw [List.mem_cons, Memory.byte]
    by_cases hab : a = b
    · subst hab
      have hnot : (a, w) ∉ rest := fun hmem => Nat.lt_irrefl a (hsorted.1 (a, w) hmem)
      have hu : u ≠ Memory.initial a := (hcells _ List.mem_cons_self).2
      rw [if_pos rfl, or_iff_left hnot, Prod.mk.injEq]
      exact ⟨fun ⟨_, h⟩ => ⟨h.symm, h ▸ hu⟩, fun ⟨h, _⟩ => ⟨rfl, h.symm⟩⟩
    · rw [if_neg hab, ← ih hrest]
      exact or_iff_right fun h => hab (congrArg Prod.fst h)

end Machine

open Machine

/-- Settles O46, by the two answers of the loader and the bytes that it wrote. -/
theorem loaderMakesTheFreshMachine : Obligations.LoaderMakesTheFreshMachine := by
  intro rom
  obtain ⟨hlong, herror⟩ | ⟨hfits, hok⟩ := State.load_cases rom
  · exact ⟨fun _ => herror, fun h => by omega⟩
  · refine ⟨fun h => by omega, fun _ => ⟨_, hok, fun j hj => ?_, fun a ha => ?_, fun a ha => ?_, rfl⟩⟩ <;>
      rw [byteAt_load]
    · rw [if_neg (by omega), Nat.add_sub_cancel_left, List.getD_eq_getElem rom 0 hj]
    · rw [if_pos ha]
    · rw [if_neg (by omega), List.getD_eq_default _ _ (by omega)]

/-- Settles O47: every field of the reset state is written out. -/
theorem resetValues : Obligations.ResetValues :=
  ⟨rfl, rfl, fun _ => Vector.getElem_replicate _, rfl, rfl, rfl, Screen.pixel_blank, rfl,
    fun _ => Vector.getElem_replicate _⟩

/-- Settles O48: under the constraint the whole font lies below 0x200. -/
theorem resetMemoryHoldsTheFont : Obligations.ResetMemoryHoldsTheFont := by
  refine ⟨fun base font hbase => ⟨fun d j hd hj => ?_, fun a ha => initialWith_eq_zero font ha⟩, ?_, reset_byteAt⟩
  · rw [fontBaseWellFormed_iff] at hbase
    rw [initialWith_of_lt font (by omega) (by omega), show base + 5 * d + j - base = 5 * d + j by omega,
      Vector.getElem?_eq_getElem (by omega), Option.getD_some]
  · rw [fontBaseWellFormed_iff]
    omega

/-- Settles O49: nothing is listed in memory, pc is 0x200 and no stack entry is live. -/
theorem resetMeetsTheInvariant : Obligations.ResetMeetsTheInvariant := reset_inv

/-- Settles O52: both lists hold the same cells, those of the bytes that differ from the reset contents, in order. -/
theorem canonicalMemoriesAreDeterminedByTheirBytes : Obligations.CanonicalMemoriesAreDeterminedByTheirBytes := by
  intro m m' hm hm' hbytes
  have hirrefl : Std.Irrefl fun c d : Host.Cell => c.1 < d.1 := ⟨fun c => Nat.lt_irrefl c.1⟩
  have hantisymm : Std.Antisymm fun c d : Host.Cell => c.1 < d.1 := ⟨fun c d h h' => absurd h (Nat.lt_asymm h')⟩
  refine hm.1.eq_of_mem_iff hm'.1 fun c => ?_
  rw [Memory.mem_iff_byte hm, Memory.mem_iff_byte hm', hbytes]

end Sys2Proof
end

section
/-! Which instruction raises what (R141), that none is refused, and so what a step can answer. -/

namespace Sys2Proof

namespace Machine

/-- The table of R141 for the instructions: who raises an error, in which states. -/
inductive Raises : Instr → State → Fault → Prop where
  | underflow {s : State} (h : s.sp.val = 0) : Raises .ret s .stackUnderflow
  | overflow {nnn : Addr12} {s : State} (h : s.sp.val = 16) : Raises (.call nnn) s .stackOverflow
  | draw {x y n : Nibble} {s : State} (h : ¬(n.toNat = 0 ∨ s.i.toNat + n.toNat ≤ 4096)) :
      Raises (.drw x y n) s (.addressOutOfRange (max s.i.toNat 0x1000))
  | digits {x : Nibble} {s : State} (h : 4096 < s.i.toNat + 3) :
      Raises (.ldBVx x) s (.addressOutOfRange (max s.i.toNat 0x1000))
  | store {x : Nibble} {s : State} (h : 4096 < s.i.toNat + regCount x) :
      Raises (.storeRegs x) s (.addressOutOfRange (max s.i.toNat 0x1000))
  | load {x : Nibble} {s : State} (h : 4096 < s.i.toNat + regCount x) :
      Raises (.loadRegs x) s (.addressOutOfRange (max s.i.toNat 0x1000))

/-- A guarded effect completes, or it is out of range and raises. -/
theorem guardRange_next_or_fault (base len : Nat) (u : State) :
    (∃ t, guardRange base len (finish .advance u) = .next t) ∨
      (¬(len = 0 ∨ base + len ≤ 4096) ∧
        guardRange base len (finish .advance u) = .fault (.addressOutOfRange (max base 0x1000))) := by
  obtain ⟨-, hgo⟩ | hfault := guardRange_cases base len (finish .advance u)
  · exact .inl ⟨_, hgo⟩
  · exact .inr hfault

/-- Every instruction completes, or raises an error that the table lists. -/
theorem exec_next_or_raises (i : Instr) (s : State) :
    (∃ t, exec i s = .next t) ∨ ∃ f, exec i s = .fault f ∧ Raises i s f := by
  cases i with
  | ret =>
    obtain ⟨hempty, hpop⟩ | ⟨k, -, t, hpop, -⟩ := s.pop_cases
    · exact .inr ⟨_, exec_ret_of_pop_none hpop, .underflow hempty⟩
    · exact .inl ⟨_, exec_ret_of_pop_some hpop⟩
  | call nnn =>
    obtain ⟨hfull, hpush⟩ | ⟨-, t, hpush, -⟩ := s.push_cases (s.pc + 2)
    · exact .inr ⟨_, exec_call_of_push_none nnn hpush, .overflow hfull⟩
    · exact .inl ⟨_, exec_call_of_push_some nnn hpush⟩
  | drw x y n =>
    obtain hnext | ⟨hout, hfault⟩ := guardRange_next_or_fault s.i.toNat n.toNat (s.drawn (drawSprite x y n s))
    · exact .inl hnext
    · exact .inr ⟨_, hfault, .draw hout⟩
  | ldBVx x =>
    obtain hnext | ⟨hout, hfault⟩ := guardRange_next_or_fault s.i.toNat 3 (storeDigits (s.readV x) s)
    · exact .inl hnext
    · exact .inr ⟨_, hfault, .digits (by omega)⟩
  | storeRegs x =>
    obtain hnext | ⟨hout, hfault⟩ := guardRange_next_or_fault s.i.toNat (regCount x) (storeFirst s (regCount x))
    · exact .inl hnext
    · exact .inr ⟨_, hfault, .store (by omega)⟩
  | loadRegs x =>
    obtain hnext | ⟨hout, hfault⟩ := guardRange_next_or_fault s.i.toNat (regCount x) (loadFirst s (regCount x))
    · exact .inl hnext
    · exact .inr ⟨_, hfault, .load (by omega)⟩
  | ldVxK x =>
    obtain ⟨hnone, -⟩ | ⟨k, hsome, -⟩ := s.leastKey_cases
    · exact .inl ⟨_, exec_ldVxK_of_leastKey_none x hnone⟩
    · exact .inl ⟨_, exec_ldVxK_of_leastKey_some x hsome⟩
  | _ => exact .inl ⟨_, rfl⟩

/-- Where the table lists an error, the instruction does not complete. -/
theorem Raises.exec_ne_next {i : Instr} {s t : State} {f : Fault} (h : Raises i s f) : exec i s ≠ .next t := by
  intro hexec
  cases h with
  | underflow h => cases ((returnPopsIntoPc.2 s).2 h).symm.trans hexec
  | overflow h => cases (((callPushesTheReturnAddress _).2 s).2 h).symm.trans hexec
  | draw h => exact h ((exec_drw_next_iff _ _ _ _ _).1 hexec).1
  | digits h => exact Nat.not_le.2 h ((exec_ldBVx_next_iff _ _ _).1 hexec).1
  | store h => exact Nat.not_le.2 h ((exec_storeRegs_next_iff _ _ _).1 hexec).1
  | load h => exact Nat.not_le.2 h ((exec_loadRegs_next_iff _ _ _).1 hexec).1

/-- An instruction has at most one error in a state. -/
theorem Raises.unique {i : Instr} {s : State} {f g : Fault} (hf : Raises i s f) (hg : Raises i s g) : f = g := by
  cases hf <;> cases hg <;> rfl

theorem exec_fault_iff (i : Instr) (s : State) (f : Fault) : exec i s = .fault f ↔ Raises i s f := by
  obtain ⟨t, hnext⟩ | ⟨g, hfault, hraises⟩ := exec_next_or_raises i s
  · exact iff_of_false (fun h => by cases hnext.symm.trans h) fun h => h.exec_ne_next hnext
  · rw [hfault, Host.Outcome.fault.injEq]
    exact ⟨fun h => h ▸ hraises, hraises.unique⟩

theorem exec_ne_refused (i : Instr) (s : State) (r : Refusal) : exec i s ≠ .refused r := by
  intro h
  obtain ⟨t, hnext⟩ | ⟨f, hfault, -⟩ := exec_next_or_raises i s
  · cases hnext.symm.trans h
  · cases hfault.symm.trans h

theorem step_next_or_fault (s : State) : (∃ t, step s = .next t) ∨ ∃ f, step s = .fault f := by
  cases hfetch : fetchDecode s with
  | error f => exact .inr ⟨f, step_of_fetchDecode_error hfetch⟩
  | ok i =>
    rw [step_of_fetchDecode_ok hfetch]
    exact (exec_next_or_raises i s).imp_right fun ⟨f, hfault, _⟩ => ⟨f, hfault⟩

end Machine

open Machine

/-- Settles O10: the table's rows, one by one, are the statement's disjuncts. -/
theorem errorsAreExactlyTheListedOnes : Obligations.ErrorsAreExactlyTheListedOnes := by
  intro i s f
  rw [exec_fault_iff]
  constructor
  · rintro (h | h | h | h | h | h)
    · exact .inl ⟨rfl, h, rfl⟩
    · exact .inr (.inl ⟨⟨_, rfl⟩, h, rfl⟩)
    · exact .inr (.inr ⟨rfl, .inl ⟨_, _, _, rfl, by omega, by omega⟩⟩)
    · exact .inr (.inr ⟨rfl, .inr (.inl ⟨⟨_, rfl⟩, by omega⟩)⟩)
    · exact .inr (.inr ⟨rfl, .inr (.inr ⟨_, .inl rfl, by rw [regCount] at h; omega⟩)⟩)
    · exact .inr (.inr ⟨rfl, .inr (.inr ⟨_, .inr rfl, by rw [regCount] at h; omega⟩)⟩)
  · rintro (⟨rfl, h, rfl⟩ | ⟨⟨nnn, rfl⟩, h, rfl⟩ | ⟨rfl, ⟨x, y, n, rfl, hn, h⟩ | ⟨⟨x, rfl⟩, h⟩ | ⟨x, rfl | rfl, h⟩⟩)
    · exact .underflow h
    · exact .overflow h
    · exact .draw (by omega)
    · exact .digits (by omega)
    · exact .store (by rw [regCount]; omega)
    · exact .load (by rw [regCount]; omega)

/-- Settles O11: an instruction completes or raises, and a step is one of an instruction or the fetch's own error. -/
theorem noInstructionIsRefused : Obligations.NoInstructionIsRefused := by
  refine ⟨exec_ne_refused, fun s r h => ?_⟩
  obtain ⟨t, hnext⟩ | ⟨f, hfault⟩ := step_next_or_fault s
  · cases hnext.symm.trans h
  · cases hfault.symm.trans h

/-- Settles O12, by the two answers of a step, a completed one being a wait or not. -/
theorem statusAndStateAfterAStep : Obligations.StatusAndStateAfterAStep := by
  intro s
  rw [← waitsForKey_iff]
  obtain ⟨t, hnext⟩ | ⟨g, hfault⟩ := step_next_or_fault s
  · rw [stepStatus_of_next hnext, afterStep_of_next hnext, hnext]
    by_cases hwait : s.waitsForKey = true
    · cases (step_of_waitsForKey hwait).symm.trans hnext
      simp [hwait]
    · simp [hwait]
  · have hwait : ¬s.waitsForKey = true := fun h => by cases (step_of_waitsForKey h).symm.trans hfault
    rw [stepStatus_of_fault hfault, afterStep_of_fault hfault, hfault]
    simp [hwait]

end Sys2Proof
end

section
/-! What an instruction that completes has changed: the stack by RET and CALL, pc by its kind (R62), and every other
part by its row of the access matrix (R24). -/

namespace Sys2Proof

namespace Machine

/-! ### The stack -/

theorem exec_ret_next {s t : State} (h : exec .ret s = .next t) :
    ∃ k : Fin 16, s.sp.val = k.val + 1 ∧ t.sp.val = k.val ∧ t = { s with sp := t.sp, pc := s.stackAt k } := by
  obtain ⟨-, hpop⟩ | ⟨k, hk, u, hpop, hsp, hu⟩ := s.pop_cases
  · cases (exec_ret_of_pop_none hpop).symm.trans h
  · cases (exec_ret_of_pop_some hpop).symm.trans h
    exact ⟨k, hk, hsp, congrArg (·.setPc (s.stackAt k)) hu⟩

theorem exec_call_next {nnn : Addr12} {s t : State} (h : exec (.call nnn) s = .next t) :
    t.sp.val = s.sp.val + 1 ∧
      (∀ k : Fin 16, t.stackAt k = if k.val = s.sp.val then s.pc + 2 else s.stackAt k) ∧
      t = { s with sp := t.sp, stack := t.stack, pc := absolute nnn } := by
  obtain ⟨-, hpush⟩ | ⟨-, u, hpush, hsp, hstack, hu⟩ := s.push_cases (s.pc + 2)
  · cases (exec_call_of_push_none nnn hpush).symm.trans h
  · cases (exec_call_of_push_some nnn hpush).symm.trans h
    exact ⟨hsp, hstack, congrArg (·.setPc (absolute nnn)) hu⟩

/-! ### pc -/

theorem skipIf_next {c : Bool} {s t : State} (h : skipIf c s = .next t) :
    t = s.setPc (s.pc + 2) ∨ t = s.setPc (s.pc + 4) := by
  cases c with
  | false => cases h; exact .inl rfl
  | true => cases h; exact .inr rfl

end Machine

open Machine

/-- Settles O13, by the way that each kind of instruction ends. -/
theorem pcMovesByKindOfInstruction : Obligations.PcMovesByKindOfInstruction := by
  intro i s t h hjump
  cases i with
  | ret | jp | call | jpV0 => cases hjump
  | seKk | sneKk | seVy | sneVy | skp | sknp =>
    exact (skipIf_next h).imp (congrArg State.pc) fun ht => .inl ⟨rfl, congrArg State.pc ht⟩
  | ldVxK x =>
    obtain ⟨hnone, hup⟩ | ⟨k, hsome, -⟩ := s.leastKey_cases
    · cases (exec_ldVxK_of_leastKey_none x hnone).symm.trans h
      exact .inr (.inr ⟨⟨x, rfl⟩, hup, rfl⟩)
    · cases (exec_ldVxK_of_leastKey_some x hsome).symm.trans h
      exact .inl rfl
  | addIVx x => cases (exec_addIVx x s).symm.trans h; exact .inl rfl
  | drw x y n => obtain ⟨-, rfl⟩ := (exec_drw_next_iff x y n s t).1 h; exact .inl rfl
  | ldBVx x => obtain ⟨-, rfl⟩ := (exec_ldBVx_next_iff x s t).1 h; exact .inl rfl
  | storeRegs x => obtain ⟨-, rfl⟩ := (exec_storeRegs_next_iff x s t).1 h; exact .inl rfl
  | loadRegs x => obtain ⟨-, rfl⟩ := (exec_loadRegs_next_iff x s t).1 h; exact .inl rfl
  | _ => cases h; exact .inl rfl

namespace Machine

/-! ### The access matrix -/

theorem keepsAllBut_cons_setPc {p : Part} {touched : List Part} {s t : State} (h : KeepsAllBut touched s t)
    (w : Word) : KeepsAllBut (p :: touched) s (t.setPc w) :=
  keepsAllBut_setPc (keepsAllBut_mono (List.subset_cons_self p touched) h) w

/-- The parts, by the write or writes of each instruction. -/
theorem exec_keepsAllBut {i : Instr} {s t : State} (h : exec i s = .next t) :
    KeepsAllBut (.regs :: i.touches) s t := by
  cases i with
  | ret =>
    obtain ⟨k, -, -, ht⟩ := exec_ret_next h
    rw [ht]
    exact keepsAllBut_cons_setPc (keepsAllBut_stack s t.sp s.stack) _
  | call nnn =>
    obtain ⟨-, -, ht⟩ := exec_call_next h
    rw [ht]
    exact keepsAllBut_cons_setPc (keepsAllBut_stack s t.sp t.stack) _
  | jp | jpV0 => cases h; exact keepsAllBut_setPc (keepsAllBut_refl _ s) _
  | seKk | sneKk | seVy | sneVy | skp | sknp =>
    obtain rfl | rfl := skipIf_next h
    all_goals exact keepsAllBut_setPc (keepsAllBut_refl _ s) _
  | ldKk | addKk | ldVy | orVy | andVy | xorVy | addVy | subVy | shr | subnVy | shl | ldVxDt =>
    cases h
    exact keepsAllBut_setPc (keepsAllBut_regs s _) _
  | ldVxK x =>
    obtain ⟨hnone, -⟩ | ⟨k, hsome, -⟩ := s.leastKey_cases
    · cases (exec_ldVxK_of_leastKey_none x hnone).symm.trans h
      exact keepsAllBut_refl _ s
    · cases (exec_ldVxK_of_leastKey_some x hsome).symm.trans h
      exact keepsAllBut_setPc (keepsAllBut_regs s _) _
  | loadRegs x =>
    obtain ⟨-, rfl⟩ := (exec_loadRegs_next_iff x s t).1 h
    rw [loadFirst_frame]
    exact keepsAllBut_setPc (keepsAllBut_regs s _) _
  | rnd => cases h; exact keepsAllBut_setPc (keepsAllBut_regs_draws s _ _) _
  | ldI | ldFVx =>
    cases h
    exact keepsAllBut_cons_setPc (keepsAllBut_setI s _) _
  | addIVx x =>
    cases (exec_addIVx x s).symm.trans h
    rw [addIndex_frame]
    exact keepsAllBut_mono (List.Perm.swap _ _ []).subset (keepsAllBut_setPc (keepsAllBut_index_regs s _ _) _)
  | cls =>
    cases h
    exact keepsAllBut_cons_setPc (keepsAllBut_setFb_setRp s _ _) _
  | drw x y n =>
    obtain ⟨-, rfl⟩ := (exec_drw_next_iff x y n s t).1 h
    exact keepsAllBut_mono (by simp [Instr.touches]) (keepsAllBut_setPc (keepsAllBut_drawn s _) _)
  | ldDtVx =>
    cases h
    exact keepsAllBut_cons_setPc (keepsAllBut_setDt s _) _
  | ldStVx =>
    cases h
    exact keepsAllBut_cons_setPc (keepsAllBut_setSt s _) _
  | ldBVx x =>
    obtain ⟨-, rfl⟩ := (exec_ldBVx_next_iff x s t).1 h
    exact keepsAllBut_cons_setPc (keepsAllBut_mem s _) _
  | storeRegs x =>
    obtain ⟨-, rfl⟩ := (exec_storeRegs_next_iff x s t).1 h
    rw [storeFirst_frame]
    exact keepsAllBut_cons_setPc (keepsAllBut_mem s _) _

/-- The registers, for the instructions that write one or a result and VF, and for those that write none. -/
theorem exec_readV {i : Instr} {s t : State} (h : exec i s = .next t) {r : Nibble} (hr : i.writesReg r = false) :
    t.readV r = s.readV r := by
  cases i with
  | ret =>
    obtain ⟨k, -, -, ht⟩ := exec_ret_next h
    rw [ht]
    rfl
  | call nnn =>
    obtain ⟨-, -, ht⟩ := exec_call_next h
    rw [ht]
    rfl
  | seKk | sneKk | seVy | sneVy | skp | sknp =>
    obtain rfl | rfl := skipIf_next h
    all_goals rfl
  | ldKk | addKk | ldVy | orVy | andVy | xorVy | rnd | ldVxDt =>
    cases h
    exact (s.readV_writeV _ _ _).trans (if_neg (beq_eq_false_iff_ne.1 hr))
  | addVy | subVy | shr | subnVy | shl =>
    cases h
    obtain ⟨hx, hflag⟩ := Bool.or_eq_false_iff.1 hr
    exact (s.readV_writeResultFlag _ _ _ _).trans
      ((if_neg (beq_eq_false_iff_ne.1 hflag)).trans (if_neg (beq_eq_false_iff_ne.1 hx)))
  | ldVxK x =>
    obtain ⟨hnone, -⟩ | ⟨k, hsome, -⟩ := s.leastKey_cases
    · cases (exec_ldVxK_of_leastKey_none x hnone).symm.trans h
      rfl
    · cases (exec_ldVxK_of_leastKey_some x hsome).symm.trans h
      exact (s.readV_writeV _ _ _).trans (if_neg (beq_eq_false_iff_ne.1 hr))
  | loadRegs x =>
    obtain ⟨-, rfl⟩ := (exec_loadRegs_next_iff x s t).1 h
    have hx : ¬r.toNat ≤ x.toNat := of_decide_eq_false hr
    rw [State.setPc_readV, readV_loadFirst s _ (by rw [regCount]; omega), if_neg (by rw [regCount]; omega)]
  | addIVx x =>
    cases (exec_addIVx x s).symm.trans h
    have hquirk : ¬(Config.quirkFx1eVf = true ∧ r = flagReg) := by
      rintro ⟨hq, rfl⟩
      simp [Instr.writesReg, hq] at hr
    rw [State.setPc_readV, readV_addIndex, if_neg hquirk]
  | drw x y n =>
    obtain ⟨-, rfl⟩ := (exec_drw_next_iff x y n s t).1 h
    exact (readV_drawn s _ r).trans (if_neg (beq_eq_false_iff_ne.1 hr))
  | ldBVx x =>
    obtain ⟨-, rfl⟩ := (exec_ldBVx_next_iff x s t).1 h
    rfl
  | storeRegs x =>
    obtain ⟨-, rfl⟩ := (exec_storeRegs_next_iff x s t).1 h
    rw [State.setPc_readV, storeFirst_frame]
    rfl
  | _ => cases h; rfl

/-- The bytes, for the two instructions that store and for those that store none (R43). -/
theorem exec_byteAt {i : Instr} {s t : State} (h : exec i s = .next t) {a : Nat}
    (ha : a < s.i.toNat ∨ s.i.toNat + i.storedBytes ≤ a) : t.byteAt a = s.byteAt a := by
  cases i with
  | ldBVx x =>
    obtain ⟨-, rfl⟩ := (exec_ldBVx_next_iff x s t).1 h
    rw [Instr.storedBytes] at ha
    rw [State.setPc_byteAt, byteAt_storeDigits, if_neg (by omega), if_neg (by omega), if_neg (by omega)]
  | storeRegs x =>
    obtain ⟨-, rfl⟩ := (exec_storeRegs_next_iff x s t).1 h
    rw [Instr.storedBytes] at ha
    rw [State.setPc_byteAt, byteAt_storeFirst, if_neg (by omega)]
  | _ => exact exec_keepsAllBut h .mem (by simp [Instr.touches]) a

/-- The core sets RP and never clears it (R20). -/
theorem exec_rp {i : Instr} {s t : State} (h : exec i s = .next t) (hrp : s.rp = true) : t.rp = true := by
  cases i with
  | cls => cases h; rfl
  | drw x y n =>
    obtain ⟨-, rfl⟩ := (exec_drw_next_iff x y n s t).1 h
    exact Bool.or_eq_true_iff.2 (.inl hrp)
  | _ => exact (exec_keepsAllBut h .redraw (by simp [Instr.touches])).trans hrp

end Machine

/-- Settles O53, from the four frames of an instruction that completes. -/
theorem instructionsWriteOnlyTheirRow : Obligations.InstructionsWriteOnlyTheirRow := by
  refine fun i s t h => ⟨fun p hregs _ hp => exec_keepsAllBut h p (fun hmem => (List.mem_cons.1 hmem).elim hregs hp),
    fun r hr => exec_readV h hr, fun a ha => exec_byteAt h ha, exec_rp h, ?_⟩
  rintro x kk rfl
  cases h
  rfl

end Sys2Proof
end

section
/-! The invariant (R25): the fresh machine meets it, and every step and every host event keeps it. -/

namespace Sys2Proof

namespace Machine

/-- Stores are checked before they write, so they stay inside memory and keep its canonical form. -/
theorem exec_mem_wf {i : Instr} {s t : State} (h : exec i s = .next t) (hm : s.mem.wf) : t.mem.wf := by
  cases i with
  | ret =>
    obtain ⟨k, -, -, ht⟩ := exec_ret_next h
    rwa [ht]
  | call nnn =>
    obtain ⟨-, -, ht⟩ := exec_call_next h
    rwa [ht]
  | seKk | sneKk | seVy | sneVy | skp | sknp =>
    obtain rfl | rfl := skipIf_next h
    all_goals exact hm
  | ldVxK x =>
    obtain ⟨hnone, -⟩ | ⟨k, hsome, -⟩ := s.leastKey_cases
    · cases (exec_ldVxK_of_leastKey_none x hnone).symm.trans h
      exact hm
    · cases (exec_ldVxK_of_leastKey_some x hsome).symm.trans h
      exact hm
  | addIVx x =>
    cases (exec_addIVx x s).symm.trans h
    rwa [State.setPc_mem, addIndex_frame]
  | loadRegs x =>
    obtain ⟨-, rfl⟩ := (exec_loadRegs_next_iff x s t).1 h
    rwa [State.setPc_mem, loadFirst_frame]
  | drw x y n =>
    obtain ⟨-, rfl⟩ := (exec_drw_next_iff x y n s t).1 h
    exact hm
  | ldBVx x =>
    obtain ⟨hrange, rfl⟩ := (exec_ldBVx_next_iff x s t).1 h
    have hin {k : Nat} (hk : k < 3) : s.effective k < Config.memSize := by
      rw [State.effective, Config.memSize]
      omega
    exact State.storeByte_wf _ _ _
      (State.storeByte_wf _ _ _ (State.storeByte_wf s _ _ hm (hin (by decide))) (hin (by decide))) (hin (by decide))
  | storeRegs x =>
    obtain ⟨hrange, rfl⟩ := (exec_storeRegs_next_iff x s t).1 h
    exact storeFirst_wf s _ hm hrange
  | _ => cases h; exact hm

theorem toNat_add_two {w : Word} (h : w.toNat ≤ 0xFFE) : (w + 2).toNat = w.toNat + 2 :=
  BitVec.toNat_add_of_lt (show w.toNat + 2 < 2 ^ 16 by omega)

theorem toNat_add_four {w : Word} (h : w.toNat ≤ 0xFFE) : (w + 4).toNat = w.toNat + 4 :=
  BitVec.toNat_add_of_lt (show w.toNat + 4 < 2 ^ 16 by omega)

/-- pc grows by at most 4 from where a word can be fetched, and the greatest target of a jump is `Bnnn`'s, 0x10FE. -/
theorem exec_pc_le {i : Instr} {s t : State} (h : exec i s = .next t) (hpc : s.pc.toNat ≤ 0xFFE) (hs : s.Inv) :
    t.pc.toNat ≤ 0x10FE := by
  cases hjump : i.isJump with
  | false =>
    obtain ht | ⟨-, ht⟩ | ⟨-, -, rfl⟩ := pcMovesByKindOfInstruction i s t h hjump
    · rw [ht, toNat_add_two hpc]
      omega
    · rw [ht, toNat_add_four hpc]
      omega
    · exact hs.pc_le
  | true =>
    cases i with
    | ret =>
      obtain ⟨k, hk, -, ht⟩ := exec_ret_next h
      have hlive := hs.live k (by omega)
      rw [ht]
      exact hlive.2.trans (by decide)
    | jp nnn =>
      cases h
      rw [State.withNext_jump, State.setPc_pc, absolute_toNat]
      omega
    | call nnn =>
      obtain ⟨-, -, ht⟩ := exec_call_next h
      have htarget : t.pc.toNat = nnn.toNat := (congrArg (·.pc.toNat) ht).trans (absolute_toNat nnn)
      omega
    | jpV0 nnn =>
      cases h
      rw [State.withNext_jump, State.setPc_pc, offsetTarget_toNat]
      omega
    | _ => cases hjump

/-- A call adds the address after it, which is between 2 and 0x1000; a return only takes an entry off. -/
theorem exec_live {i : Instr} {s t : State} (h : exec i s = .next t) (hpc : s.pc.toNat ≤ 0xFFE) (hs : s.Inv)
    (k : Fin 16) (hk : k.val < t.sp.val) : 2 ≤ (t.stackAt k).toNat ∧ (t.stackAt k).toNat ≤ 0x1000 := by
  cases i with
  | ret =>
    obtain ⟨top, htop, hsp, ht⟩ := exec_ret_next h
    have hstack : t.stackAt k = s.stackAt k := congrArg (·.stackAt k) ht
    rw [hstack]
    exact hs.live k (by omega)
  | call nnn =>
    obtain ⟨hsp, hstack, -⟩ := exec_call_next h
    rw [hstack]
    split_ifs with hslot
    · rw [toNat_add_two hpc]
      omega
    · exact hs.live k (by omega)
  | _ =>
    obtain ⟨hsp, hstack⟩ := exec_keepsAllBut h .stack (by simp [Instr.touches])
    rw [hstack]
    exact hs.live k (by rwa [← hsp])

theorem step_inv {s t : State} (hs : s.Inv) (h : step s = .next t) : t.Inv := by
  obtain ⟨i, hfetch, hexec⟩ := (step_next_iff s t).1 h
  obtain ⟨hpc, -⟩ := (fetchDecode_ok_iff s i).1 hfetch
  exact ⟨exec_mem_wf hexec hs.mem_wf, exec_pc_le hexec hpc hs, exec_live hexec hpc hs⟩

/-- A host event writes the timers, the keys or RP, of which the invariant says nothing. -/
theorem apply_inv (e : HostEvent) {s : State} (hs : s.Inv) : (e.apply s).Inv := by
  cases e with
  | timerTick | redrawAck => exact ⟨hs.mem_wf, hs.pc_le, hs.live⟩
  | keys snapshot =>
    rw [apply_keys]
    generalize keysOfSnapshot snapshot = key
    exact ⟨hs.mem_wf, hs.pc_le, hs.live⟩

theorem load_inv {rom : List Byte} {s : State} (h : State.load rom = .ok s) : s.Inv := by
  obtain ⟨-, herror⟩ | ⟨hfits, hok⟩ := State.load_cases rom
  · cases herror.symm.trans h
  · cases hok.symm.trans h
    have hwf : (State.reset.mem.writeBytes Config.programBase rom).wf :=
      Memory.wf_writeBytes rom _ _ Memory.wf_nil (by rw [Config.programBase, Config.memSize]; omega)
    exact ⟨hwf, reset_inv.pc_le, reset_inv.live⟩

theorem Reachable.inv {s : State} (h : Reachable s) : s.Inv := by
  induction h with
  | fresh rom s hload => exact load_inv hload
  | move s t _ hmove ih =>
    cases hmove with
    | core hstep => exact step_inv ih hstep
    | host e happly => exact happly ▸ apply_inv e ih

end Machine

open Machine

/-- Settles O50: each of the invariant's three clauses is kept, from the range check of the fetch on. -/
theorem stepKeepsTheInvariant : Obligations.StepKeepsTheInvariant := fun _ _ hs h => step_inv hs h

/-- Settles O51, by induction on the run. -/
theorem reachableStatesMeetTheInvariant : Obligations.ReachableStatesMeetTheInvariant :=
  ⟨fun e _ hs => apply_inv e hs, fun _ h => h.inv⟩

end Sys2Proof
end

section
/-! Two runs side by side: what a relation between states must grant for a step not to tell them apart, and the two
relations that grant it (R17, R20, R21). -/

namespace Sys2Proof

namespace Machine

/-- Related states differ in the stack, RP and ST at most, give a pop alike, and stay related under every write. -/
structure BlindTo (R : State → State → Prop) : Prop where
  same {s t : State} (h : R s t) : ∃ stack sp rp st, t = { s with stack := stack, sp := sp, rp := rp, st := st }
  update {s t : State} (h : R s t) (mem : Memory) (v : Vector Byte 16) (i pc : Word) (fb : Screen) (dt : Byte)
    (draws : Nat) : R { s with mem := mem, v := v, i := i, pc := pc, fb := fb, dt := dt, draws := draws }
      { t with mem := mem, v := v, i := i, pc := pc, fb := fb, dt := dt, draws := draws }
  setSt {s t : State} (h : R s t) (b : Byte) : R (s.setSt b) (t.setSt b)
  setRp {s t : State} (h : R s t) : R (s.setRp true) (t.setRp true)
  orRp {s t : State} (h : R s t) (b : Bool) : R (s.setRp (s.rp || b)) (t.setRp (t.rp || b))
  push {s t : State} (h : R s t) (w : Word) :
    (s.push w = none ∧ t.push w = none) ∨ ∃ s' t', s.push w = some s' ∧ t.push w = some t' ∧ R s' t'
  pop {s t : State} (h : R s t) :
    (s.pop = none ∧ t.pop = none) ∨ ∃ w s' t', s.pop = some (w, s') ∧ t.pop = some (w, t') ∧ R s' t'

theorem drawRows_congr {s t : State} (hmem : t.mem = s.mem) (hi : t.i = s.i) (x0 y0 k : Nat) (acc : DrawAcc) :
    drawRows t x0 y0 k acc = drawRows s x0 y0 k acc := by
  induction k with
  | zero => rfl
  | succ k ih => simp only [drawRows, ih, State.byteAt, State.effective, hmem, hi]

theorem guardRange_alike {R : State → State → Prop} (base len : Nat) {go go' : Result}
    (h : AnswersAlike R go go') : AnswersAlike R (guardRange base len go) (guardRange base len go') := by
  unfold guardRange
  split
  · exact h
  · exact rfl

section
variable {R : State → State → Prop} (hR : BlindTo R) {s t : State}
include hR

theorem BlindTo.setPc (h : R s t) (w : Word) : R (s.setPc w) (t.setPc w) := by
  obtain ⟨stack, sp, rp, st, rfl⟩ := hR.same h
  exact hR.update h _ _ _ _ _ _ _

theorem BlindTo.storeByte (h : R s t) (a : Nat) (w : Byte) : R (s.storeByte a w) (t.storeByte a w) := by
  obtain ⟨stack, sp, rp, st, rfl⟩ := hR.same h
  exact hR.update h _ _ _ _ _ _ _

theorem BlindTo.writeV (h : R s t) (x : Nibble) (b : Byte) : R (s.writeV x b) (t.writeV x b) := by
  obtain ⟨stack, sp, rp, st, rfl⟩ := hR.same h
  exact hR.update h _ _ _ _ _ _ _

theorem BlindTo.advance (h : R s t) : AnswersAlike R (finish .advance s) (finish .advance t) := by
  obtain ⟨stack, sp, rp, st, rfl⟩ := hR.same h
  exact hR.setPc h _

theorem BlindTo.storeFirst (h : R s t) (k : Nat) : R (storeFirst s k) (storeFirst t k) := by
  induction k with
  | zero => exact h
  | succ k ih =>
    obtain ⟨stack, sp, rp, st, rfl⟩ := hR.same h
    exact hR.storeByte ih _ _

theorem BlindTo.loadFirst (h : R s t) (k : Nat) : R (loadFirst s k) (loadFirst t k) := by
  induction k with
  | zero => exact h
  | succ k ih =>
    obtain ⟨stack, sp, rp, st, rfl⟩ := hR.same h
    exact hR.writeV ih _ _

theorem BlindTo.skipIf (h : R s t) (c : Bool) : AnswersAlike R (skipIf c s) (skipIf c t) := by
  obtain ⟨stack, sp, rp, st, rfl⟩ := hR.same h
  rw [skipIf_eq, skipIf_eq]
  exact hR.setPc h _

theorem BlindTo.addIndex (h : R s t) (quirk : Bool) (x : Nibble) : R (addIndex quirk x s) (addIndex quirk x t) := by
  obtain ⟨stack, sp, rp, st, rfl⟩ := hR.same h
  cases quirk <;> exact hR.update h _ _ _ _ _ _ _

theorem BlindTo.drawn (h : R s t) (d : DrawAcc) : R (s.drawn d) (t.drawn d) := by
  have hrp := hR.orRp h d.changed
  obtain ⟨stack, sp, rp, st, rfl⟩ := hR.same h
  exact hR.update hrp _ _ _ _ _ _ _

/-- Every instruction is blind to the difference, by the kind of its effect. -/
theorem exec_alike (h : R s t) (i : Instr) : AnswersAlike R (exec i s) (exec i t) := by
  obtain ⟨stack, sp, rp, st, rfl⟩ := hR.same h
  cases i with
  | ret =>
    obtain ⟨hs, ht⟩ | ⟨w, s', t', hs, ht, h'⟩ := hR.pop h
    · rw [exec_ret_of_pop_none hs, exec_ret_of_pop_none ht]
      exact rfl
    · rw [exec_ret_of_pop_some hs, exec_ret_of_pop_some ht]
      exact hR.setPc h' w
  | call nnn =>
    obtain ⟨hs, ht⟩ | ⟨s', t', hs, ht, h'⟩ := hR.push h (s.pc + 2)
    · rw [exec_call_of_push_none nnn hs, exec_call_of_push_none nnn ht]
      exact rfl
    · rw [exec_call_of_push_some nnn hs, exec_call_of_push_some nnn ht]
      exact hR.setPc h' _
  | seKk | sneKk | seVy | sneVy | skp | sknp => exact hR.skipIf h _
  | cls => exact hR.update (hR.setRp h) _ _ _ _ _ _ _
  | ldStVx => exact hR.setPc (hR.setSt h _) _
  | ldVxK x =>
    have hkey : State.leastKey { s with stack := stack, sp := sp, rp := rp, st := st } = s.leastKey := rfl
    obtain ⟨hnone, -⟩ | ⟨k, hsome, -⟩ := s.leastKey_cases
    · rw [exec_ldVxK_of_leastKey_none x hnone, exec_ldVxK_of_leastKey_none x (hkey.trans hnone)]
      exact h
    · rw [exec_ldVxK_of_leastKey_some x hsome, exec_ldVxK_of_leastKey_some x (hkey.trans hsome)]
      exact hR.setPc (hR.writeV h _ _) _
  | drw x y n =>
    have hdraw : drawSprite x y n { s with stack := stack, sp := sp, rp := rp, st := st } = drawSprite x y n s :=
      drawRows_congr (s := s) (t := { s with stack := stack, sp := sp, rp := rp, st := st }) rfl rfl _ _ _ _
    rw [exec, exec, execDrw, execDrw, hdraw]
    exact guardRange_alike _ _ (hR.advance (hR.drawn h _))
  | addIVx x => exact hR.advance (hR.addIndex h _ x)
  | ldBVx x =>
    exact guardRange_alike _ _ (hR.advance (hR.storeByte (hR.storeByte (hR.storeByte h _ _) _ _) _ _))
  | storeRegs x => exact guardRange_alike _ _ (hR.advance (hR.storeFirst h _))
  | loadRegs x => exact guardRange_alike _ _ (hR.advance (hR.loadFirst h _))
  | _ => exact hR.update h _ _ _ _ _ _ _

theorem step_alike (h : R s t) : AnswersAlike R (step s) (step t) := by
  have hfetch : fetchDecode t = fetchDecode s := by
    obtain ⟨stack, sp, rp, st, rfl⟩ := hR.same h
    exact fetchDecode_congr s _ rfl rfl
  unfold step
  rw [hfetch]
  cases fetchDecode s with
  | error f => exact rfl
  | ok i => exact exec_alike hR h i
end

/-! ### ST and RP -/

theorem agreeButSoundAndRedraw_iff (s t : State) :
    AgreeButSoundAndRedraw s t ↔ ∃ st rp, t = { s with st := st, rp := rp } :=
  ⟨fun h => ⟨_, _, h⟩, by rintro ⟨st, rp, rfl⟩; rfl⟩

theorem blindTo_soundAndRedraw : BlindTo AgreeButSoundAndRedraw where
  same h := ⟨_, _, _, _, h⟩
  update h _ _ _ _ _ _ _ := by
    obtain ⟨st, rp, rfl⟩ := (agreeButSoundAndRedraw_iff _ _).1 h
    rfl
  setSt h _ := by
    obtain ⟨st, rp, rfl⟩ := (agreeButSoundAndRedraw_iff _ _).1 h
    rfl
  setRp h := by
    obtain ⟨st, rp, rfl⟩ := (agreeButSoundAndRedraw_iff _ _).1 h
    rfl
  orRp h _ := by
    obtain ⟨st, rp, rfl⟩ := (agreeButSoundAndRedraw_iff _ _).1 h
    rfl
  push {s t} h w := by
    obtain ⟨st, rp, rfl⟩ := (agreeButSoundAndRedraw_iff _ _).1 h
    by_cases hroom : s.sp.val < 16
    · exact .inr ⟨_, _, dif_pos hroom, dif_pos hroom, rfl⟩
    · exact .inl ⟨dif_neg hroom, dif_neg hroom⟩
  pop {s t} h := by
    obtain ⟨st, rp, rfl⟩ := (agreeButSoundAndRedraw_iff _ _).1 h
    by_cases hlive : 0 < s.sp.val
    · exact .inr ⟨_, _, _, dif_pos hlive, dif_pos hlive, rfl⟩
    · exact .inl ⟨dif_neg hlive, dif_neg hlive⟩

/-! ### Dead stack entries -/

theorem agreeButDeadStack_iff (s t : State) :
    AgreeButDeadStack s t ↔ ∃ stack, t = { s with stack := stack } ∧
      ∀ k : Fin 16, k.val < s.sp.val → stack[k.val] = s.stackAt k :=
  ⟨fun h => ⟨_, h⟩, by rintro ⟨stack, rfl, hlive⟩; exact ⟨rfl, hlive⟩⟩

/-- A push makes one dead entry live, and writes it; a pop reads a live one. -/
theorem blindTo_deadStack : BlindTo AgreeButDeadStack where
  same h := ⟨_, _, _, _, h.1⟩
  update h _ _ _ _ _ _ _ := by
    obtain ⟨stack, rfl, hlive⟩ := (agreeButDeadStack_iff _ _).1 h
    exact ⟨rfl, hlive⟩
  setSt h _ := by
    obtain ⟨stack, rfl, hlive⟩ := (agreeButDeadStack_iff _ _).1 h
    exact ⟨rfl, hlive⟩
  setRp h := by
    obtain ⟨stack, rfl, hlive⟩ := (agreeButDeadStack_iff _ _).1 h
    exact ⟨rfl, hlive⟩
  orRp h _ := by
    obtain ⟨stack, rfl, hlive⟩ := (agreeButDeadStack_iff _ _).1 h
    exact ⟨rfl, hlive⟩
  push {s t} h w := by
    obtain ⟨stack, rfl, hlive⟩ := (agreeButDeadStack_iff _ _).1 h
    by_cases hroom : s.sp.val < 16
    · refine .inr ⟨_, _, dif_pos hroom, dif_pos hroom, rfl, fun k hk => ?_⟩
      have hk : k.val < s.sp.val + 1 := hk
      simp only [State.stackAt, Vector.getElem_set]
      split_ifs with hslot
      · rfl
      · exact hlive k (by omega)
    · exact .inl ⟨dif_neg hroom, dif_neg hroom⟩
  pop {s t} h := by
    obtain ⟨stack, rfl, hlive⟩ := (agreeButDeadStack_iff _ _).1 h
    by_cases hentry : 0 < s.sp.val
    · have htop : stack[s.sp.val - 1] = s.stack[s.sp.val - 1] :=
        hlive ⟨s.sp.val - 1, by omega⟩ (Nat.sub_one_lt_of_lt hentry)
      refine .inr ⟨_, _, _, dif_pos hentry, (dif_pos hentry).trans (by rw [htop]), rfl, fun k hk => ?_⟩
      have hk : k.val < s.sp.val - 1 := hk
      exact hlive k (by omega)
    · exact .inl ⟨dif_neg hentry, dif_neg hentry⟩

end Machine

open Machine

/-- Settles O54: neither field is read but to be written back under a draw, where only RP itself depends on it. -/
theorem soundTimerAndRedrawFlagAreNeverRead : Obligations.SoundTimerAndRedrawFlagAreNeverRead :=
  fun _ _ h => step_alike blindTo_soundAndRedraw h

/-- Settles O55: a push writes the dead entry that it makes live, and a pop reads a live one. -/
theorem deadStackEntriesAreNeverRead : Obligations.DeadStackEntriesAreNeverRead :=
  fun _ _ h => step_alike blindTo_deadStack h

end Sys2Proof
end
